-- ==== Sys2Proof/Word.lean ====
section
/-! DEFINITION. The widths CORE works in (spec/00_scope.md R5, R6): every register, address, immediate and
instruction is a pattern of 32 bits; memory holds bytes; the prefetch reads a half-word. -/

namespace Sys2Proof

/-- A 32-bit pattern (R6): register contents, pc, address, decoded immediate, instruction word. -/
abbrev Word := BitVec 32

/-- A 16-bit pattern: a half-word of memory, and the prefetch of R83. -/
abbrev Half := BitVec 16

/-- An 8-bit pattern: one byte of memory (R18). -/
abbrev Byte := BitVec 8

/-- A register index field (R48): 5 bits, so it names one of x0..x31 and cannot be out of range (R10). -/
abbrev RegIdx := BitVec 5

end Sys2Proof
end

