-- ==== Sys2Proof/Config.lean ====
section
/-! DEFINITION. What a construction of CORE fixes (spec/00_scope.md R5, spec/70_reset_and_hazards.md R176): the
parameters MEM_SIZE, IMAGE, INIT_X, INIT_MEM and RESET_PC, each with the spec's recommended default. -/

namespace Sys2Proof

/-- What a byte of memory reads as when the list of cells does not name it: the recommended default of INIT_MEM.
DESIGN CHOICE (D3: the source is silent), unsafe: log entry 4. -/
def Config.unlistedByte : Byte := 0

/-- The parameters of a launch (R5, R176). The defaults are DESIGN CHOICE (D1, D2, D3; N13 for MEM_SIZE), unsafe: log
entries 1 to 4. -/
structure Config where
  /-- MEM_SIZE, the capacity in bytes. -/
  memSize : Nat := 8192
  /-- IMAGE, the raw little-endian program bytes, loaded from address 0. -/
  image : List Byte := []
  /-- INIT_X, the launch contents of x1..x31 in order. -/
  initX : Vector Word 31 := Vector.replicate 31 0
  /-- INIT_MEM, as (address, byte) pairs; an address it does not name holds `Config.unlistedByte`. -/
  initMem : List Host.Cell := []
  /-- RESET_PC, the launch pc. -/
  resetPc : Word := 0
deriving DecidableEq, Repr

end Sys2Proof
end

