-- ==== Sys2Proof/Syntax.lean ====
section
/-! DEFINITION. The instructions CORE recognises: one constructor per row of spec/opcode_table.json (47 rows; R3, R186 (b)),
with the decoded fields of its format (spec/30_encoding.md R49 to R55). A register field is `RegIdx`; an immediate is the
32-bit pattern the format's decoder produces, already sign-extended or positioned (R50 to R54), log entry 21; a shift amount is
the 5 bits of R55. `ecall` and `ebreak` keep the two fields the dispatch does not examine (R67, D9), so that the word an
Unimplemented condition reports can be told from the instruction: log entry 12. -/

namespace Sys2Proof

/-- The recognised instructions, in the order of spec/opcode_table.json. -/
inductive Instr where
  /-- `add`, R94. -/
  | add (rd rs1 rs2 : RegIdx)
  /-- `sub`, R95. -/
  | sub (rd rs1 rs2 : RegIdx)
  /-- `sll`, R96. -/
  | sll (rd rs1 rs2 : RegIdx)
  /-- `slt`, R97. -/
  | slt (rd rs1 rs2 : RegIdx)
  /-- `sltu`, R98. -/
  | sltu (rd rs1 rs2 : RegIdx)
  /-- `xor`, R99. -/
  | xor (rd rs1 rs2 : RegIdx)
  /-- `srl`, R100. -/
  | srl (rd rs1 rs2 : RegIdx)
  /-- `sra`, R101. -/
  | sra (rd rs1 rs2 : RegIdx)
  /-- `or`, R102. -/
  | or (rd rs1 rs2 : RegIdx)
  /-- `and`, R103. -/
  | and (rd rs1 rs2 : RegIdx)
  /-- `addi`, R106. -/
  | addi (rd rs1 : RegIdx) (imm : Word)
  /-- `slti`, R107. -/
  | slti (rd rs1 : RegIdx) (imm : Word)
  /-- `sltiu`, R108. -/
  | sltiu (rd rs1 : RegIdx) (imm : Word)
  /-- `xori`, R109. -/
  | xori (rd rs1 : RegIdx) (imm : Word)
  /-- `ori`, R110. -/
  | ori (rd rs1 : RegIdx) (imm : Word)
  /-- `andi`, R111. -/
  | andi (rd rs1 : RegIdx) (imm : Word)
  /-- `slli`, R112. -/
  | slli (rd rs1 : RegIdx) (shamt : BitVec 5)
  /-- `srli`, R113. -/
  | srli (rd rs1 : RegIdx) (shamt : BitVec 5)
  /-- `srai`, R114. -/
  | srai (rd rs1 : RegIdx) (shamt : BitVec 5)
  /-- `lb`, R117. -/
  | lb (rd rs1 : RegIdx) (imm : Word)
  /-- `lh`, R118. -/
  | lh (rd rs1 : RegIdx) (imm : Word)
  /-- `lw`, R119. -/
  | lw (rd rs1 : RegIdx) (imm : Word)
  /-- `lbu`, R120. -/
  | lbu (rd rs1 : RegIdx) (imm : Word)
  /-- `lhu`, R121. -/
  | lhu (rd rs1 : RegIdx) (imm : Word)
  /-- `sb`, R124. -/
  | sb (rs1 rs2 : RegIdx) (imm : Word)
  /-- `sh`, R125. -/
  | sh (rs1 rs2 : RegIdx) (imm : Word)
  /-- `sw`, R126. -/
  | sw (rs1 rs2 : RegIdx) (imm : Word)
  /-- `beq`, R129. -/
  | beq (rs1 rs2 : RegIdx) (imm : Word)
  /-- `bne`, R130. -/
  | bne (rs1 rs2 : RegIdx) (imm : Word)
  /-- `blt`, R131. -/
  | blt (rs1 rs2 : RegIdx) (imm : Word)
  /-- `bge`, R132. -/
  | bge (rs1 rs2 : RegIdx) (imm : Word)
  /-- `bltu`, R133. -/
  | bltu (rs1 rs2 : RegIdx) (imm : Word)
  /-- `bgeu`, R134. -/
  | bgeu (rs1 rs2 : RegIdx) (imm : Word)
  /-- `jal`, R136. -/
  | jal (rd : RegIdx) (imm : Word)
  /-- `jalr`, R137. -/
  | jalr (rd rs1 : RegIdx) (imm : Word)
  /-- `lui`, R140. -/
  | lui (rd : RegIdx) (imm : Word)
  /-- `auipc`, R141. -/
  | auipc (rd : RegIdx) (imm : Word)
  /-- `ecall`, R144. -/
  | ecall (rd rs1 : RegIdx)
  /-- `ebreak`, R145. -/
  | ebreak (rd rs1 : RegIdx)
  /-- `mul`, R146. -/
  | mul (rd rs1 rs2 : RegIdx)
  /-- `mulh`, R147. -/
  | mulh (rd rs1 rs2 : RegIdx)
  /-- `mulhsu`, R148. -/
  | mulhsu (rd rs1 rs2 : RegIdx)
  /-- `mulhu`, R149. -/
  | mulhu (rd rs1 rs2 : RegIdx)
  /-- `div`, R150. -/
  | div (rd rs1 rs2 : RegIdx)
  /-- `divu`, R151. -/
  | divu (rd rs1 rs2 : RegIdx)
  /-- `rem`, R152. -/
  | rem (rd rs1 rs2 : RegIdx)
  /-- `remu`, R153. -/
  | remu (rd rs1 rs2 : RegIdx)
deriving DecidableEq, Repr

/-- The instruction's mnemonic, as spec/opcode_table.json spells it. -/
def Instr.mnemonic : Instr → String
  | .add _ _ _ => "add"
  | .sub _ _ _ => "sub"
  | .sll _ _ _ => "sll"
  | .slt _ _ _ => "slt"
  | .sltu _ _ _ => "sltu"
  | .xor _ _ _ => "xor"
  | .srl _ _ _ => "srl"
  | .sra _ _ _ => "sra"
  | .or _ _ _ => "or"
  | .and _ _ _ => "and"
  | .addi _ _ _ => "addi"
  | .slti _ _ _ => "slti"
  | .sltiu _ _ _ => "sltiu"
  | .xori _ _ _ => "xori"
  | .ori _ _ _ => "ori"
  | .andi _ _ _ => "andi"
  | .slli _ _ _ => "slli"
  | .srli _ _ _ => "srli"
  | .srai _ _ _ => "srai"
  | .lb _ _ _ => "lb"
  | .lh _ _ _ => "lh"
  | .lw _ _ _ => "lw"
  | .lbu _ _ _ => "lbu"
  | .lhu _ _ _ => "lhu"
  | .sb _ _ _ => "sb"
  | .sh _ _ _ => "sh"
  | .sw _ _ _ => "sw"
  | .beq _ _ _ => "beq"
  | .bne _ _ _ => "bne"
  | .blt _ _ _ => "blt"
  | .bge _ _ _ => "bge"
  | .bltu _ _ _ => "bltu"
  | .bgeu _ _ _ => "bgeu"
  | .jal _ _ => "jal"
  | .jalr _ _ _ => "jalr"
  | .lui _ _ => "lui"
  | .auipc _ _ => "auipc"
  | .ecall _ _ => "ecall"
  | .ebreak _ _ => "ebreak"
  | .mul _ _ _ => "mul"
  | .mulh _ _ _ => "mulh"
  | .mulhsu _ _ _ => "mulhsu"
  | .mulhu _ _ _ => "mulhu"
  | .div _ _ _ => "div"
  | .divu _ _ _ => "divu"
  | .rem _ _ _ => "rem"
  | .remu _ _ _ => "remu"

/-- A row of spec/opcode_table.json: a word `w` is this instruction iff `w &&& mask = pattern` (R92). -/
structure OpcodeRow where
  mnemonic : String
  pattern : Word
  mask : Word
deriving DecidableEq, Repr

/-- What dispatch makes of a 32-bit word (R60 steps 1 to 3): an instruction, or one of the two decode failures with the
word it reports (R159, R160). -/
inductive Decoded where
  /-- The word is this instruction. -/
  | instr (i : Instr)
  /-- The opcode is none of the ten (R73). -/
  | unknownOpcode (w : Word)
  /-- The opcode is recognised, the discriminator is not (R74, R75). -/
  | unknownFunct (w : Word)
deriving DecidableEq, Repr

/-- What the bytes at an address begin with (R45, R56, R83). -/
inductive DecodedBytes where
  /-- A 32-bit word, dispatched, and the bytes after it. -/
  | word (d : Decoded) (rest : List Byte)
  /-- A 16-bit compressed half-word, detected and not decoded further (R77), and the bytes after it. -/
  | compressed (h : Half) (rest : List Byte)
  /-- Fewer bytes than the half-word or the word needs. -/
  | truncated
deriving DecidableEq, Repr

end Sys2Proof
end

