-- ==== Sys2Proof/Machine/State.lean ====
section
/-! DEFINITION. All the state of CORE (spec/10_state.md): 32 general registers, the program counter, the memory. Beside it the
reasons a step can stop, the result of `interpret`, and the state after reset. -/

namespace Sys2Proof.Machine

/-- The fixed-capacity byte array (R18, R26): `size` is MEM_SIZE, `cells` the bytes that differ from
`Config.unlistedByte`, addresses strictly rising. MEM_SIZE is a constant of the construction that no step changes: log entry
1. -/
structure Memory where
  size : Nat
  cells : List Host.Cell
deriving DecidableEq, Repr

/-- The state of CORE: the register file (R10), the program counter (R14) and the memory (R18). Slot 0 of the stored array is
never written and never read (R11, R12): log entry 22. -/
structure State where
  regs : Vector Word 32
  pc : Word
  mem : Memory
deriving DecidableEq, Repr

/-- What an Unimplemented condition names (R143, R161, D19): the kind, with the word or half-word that spells it. -/
inductive Unimplemented where
  /-- `ecall` (R144). -/
  | ecall (word : Word)
  /-- `ebreak` (R145). -/
  | ebreak (word : Word)
  /-- One of the eight M-extension instructions (R146 to R153). -/
  | m (word : Word)
  /-- A 16-bit compressed half-word (R154). -/
  | compressed (half : Half)
deriving DecidableEq, Repr

/-- The four conditions of CORE (R158), each ending the run with the state as it was before the step (R86, R88). They are the
machine's own outcomes, not gaps of the model: log entries 11 and 18. -/
inductive Fault where
  /-- Raised by dispatch when the opcode is none of the ten (R159, R73). Safe: the spec ends the run here. -/
  | unknownOpcode (word : Word)
  /-- Raised by dispatch when the discriminator is in no row (R160, R74, R75). Safe: the spec ends the run here. -/
  | unknownFunct (word : Word)
  /-- Raised by `ecall`, `ebreak` and the M instructions, and by the fetch for a compressed half-word (R161). Safe: the spec
  ends the run here. -/
  | unimplemented (what : Unimplemented)
  /-- Raised by a memory accessor, for a load, a store or the fetch, when `addr + n > MEM_SIZE` (R162, R30). Safe: the spec
  ends the run here. -/
  | memoryOutOfBounds (addr : Word) (n : Nat)
deriving DecidableEq, Repr

/-- Why the model would decline an instruction. No arm of `exec` uses it. -/
inductive Refusal where
  /-- Raised by an arm of `exec` whose instruction has no meaning yet; there is none. Safe. -/
  | notModelled (mnemonic : String)
deriving DecidableEq, Repr

/-- The full outcome of `interpret` (R81, R82): fell through, redirected with the pc already written, or a condition. -/
inductive Interp where
  /-- redirected = false: the state after the handler, pc not yet advanced. -/
  | sequential (s : State)
  /-- redirected = true: the state after the handler, pc holding the target. -/
  | redirected (s : State)
  /-- `interpret` did not return: the condition raised, no state changed. -/
  | raised (c : Fault)
deriving DecidableEq, Repr

/-- The state after reset (R24, R177) with the recommended defaults: x0 = 0 is the spec's; x1..x31 = 0 (D2), pc = 0 (D1), every
byte of memory 0 (D3) and MEM_SIZE = 8192 are DESIGN CHOICE, unsafe: log entries 1 to 4. No image is loaded: log entry 5. -/
def State.reset : State where
  regs := Vector.replicate 32 0
  pc := 0
  mem := { size := 8192, cells := [] }

end Sys2Proof.Machine
end

