-- ==== Sys2Proof/Machine/Flags.lean ====
section
/-! DEFINITION. CORE has no flags and no condition codes (spec/10_state.md R19): a comparison writes 0 or 1 to a register (R97,
R98) or decides a branch (R128). Here are the comparisons, exact on the integers the patterns stand for, and the 0 or 1 they
write. -/

namespace Sys2Proof.Machine

/-- `a <s b`: signed(a) < signed(b) (R7); exact, not the sign of a wrapped difference (R97). -/
def ltSigned (a b : Word) : Bool := decide (a.toInt < b.toInt)

/-- `a <u b`: the patterns read as unsigned integers (R7, R98). -/
def ltUnsigned (a b : Word) : Bool := decide (a.toNat < b.toNat)

/-- The 32-bit value 1 or 0 a comparison writes (R97). -/
def boolWord (b : Bool) : Word := if b then 1 else 0

end Sys2Proof.Machine
end

