-- ==== Sys2Proof/WellFormed.lean ====
section
/-! DEFINITION. Well-formed instructions: those whose immediate is one the format can encode (spec/30_encoding.md R50 to R54,
R58, R78). Register fields and shift amounts are well-formed by their types (R48, R55). -/

namespace Sys2Proof

/-- An I-type or S-type immediate: signed value -2048 to 2047 (R50, R51). -/
def immFits12 (imm : Word) : Bool := decide (-2048 ≤ imm.toInt ∧ imm.toInt ≤ 2047)

/-- A B-type offset: even, signed value -4096 to 4094 (R52). -/
def immFitsB (imm : Word) : Bool := decide (-4096 ≤ imm.toInt ∧ imm.toInt ≤ 4094 ∧ imm.toInt % 2 = 0)

/-- A J-type offset: even, signed value -1048576 to 1048574 (R54). -/
def immFitsJ (imm : Word) : Bool :=
  decide (-1048576 ≤ imm.toInt ∧ imm.toInt ≤ 1048574 ∧ imm.toInt % 2 = 0)

/-- A U-type immediate: bits 11:0 are zero (R53). -/
def immFitsU (imm : Word) : Bool := decide (imm &&& 0xFFF = 0)

/-- The instruction's operands are ones its encoding admits. -/
def Instr.wellFormed : Instr → Bool
  | .add _ _ _ => true
  | .sub _ _ _ => true
  | .sll _ _ _ => true
  | .slt _ _ _ => true
  | .sltu _ _ _ => true
  | .xor _ _ _ => true
  | .srl _ _ _ => true
  | .sra _ _ _ => true
  | .or _ _ _ => true
  | .and _ _ _ => true
  | .addi _ _ imm => immFits12 imm
  | .slti _ _ imm => immFits12 imm
  | .sltiu _ _ imm => immFits12 imm
  | .xori _ _ imm => immFits12 imm
  | .ori _ _ imm => immFits12 imm
  | .andi _ _ imm => immFits12 imm
  | .slli _ _ _ => true
  | .srli _ _ _ => true
  | .srai _ _ _ => true
  | .lb _ _ imm => immFits12 imm
  | .lh _ _ imm => immFits12 imm
  | .lw _ _ imm => immFits12 imm
  | .lbu _ _ imm => immFits12 imm
  | .lhu _ _ imm => immFits12 imm
  | .sb _ _ imm => immFits12 imm
  | .sh _ _ imm => immFits12 imm
  | .sw _ _ imm => immFits12 imm
  | .beq _ _ imm => immFitsB imm
  | .bne _ _ imm => immFitsB imm
  | .blt _ _ imm => immFitsB imm
  | .bge _ _ imm => immFitsB imm
  | .bltu _ _ imm => immFitsB imm
  | .bgeu _ _ imm => immFitsB imm
  | .jal _ imm => immFitsJ imm
  | .jalr _ _ imm => immFits12 imm
  | .lui _ imm => immFitsU imm
  | .auipc _ imm => immFitsU imm
  | .ecall _ _ => true
  | .ebreak _ _ => true
  | .mul _ _ _ => true
  | .mulh _ _ _ => true
  | .mulhsu _ _ _ => true
  | .mulhu _ _ _ => true
  | .div _ _ _ => true
  | .divu _ _ _ => true
  | .rem _ _ _ => true
  | .remu _ _ _ => true

end Sys2Proof
end

