-- ==== Sys2Proof/Decode.lean ====
section
/-! DEFINITION. The decoder of CORE (spec/30_encoding.md): `extract_bits` and every extractor composed from it (R46 to R56),
dispatch of a word (R60 to R75), the reading of bytes (R45, R56, R83); and, from the same tables, the encoder. The numeric
opcode, funct3 and funct7 values and the field positions are those the rules give, from general knowledge and not from the
source (G1 to G4): UNVERIFIED against the repository, unsafe: log entry 6. -/

namespace Sys2Proof

/-! ### The decoder's primitives -/

/-- `extract_bits(word, high, low)`, written `w[hi:lo]` (R46, R6): the one primitive every extractor is composed from. It is
defined only for `lo ≤ hi ≤ 31`; a call outside that range has no meaning and cannot be written (U6, log entry 20). -/
def extractBits (w : Word) (hi lo : Nat) (_ok : lo ≤ hi ∧ hi ≤ 31 := by decide) : BitVec (hi - lo + 1) :=
  w.extractLsb hi lo

/-- A field laid into a word with its bit 0 at bit `lo`, all other bits 0: the pieces of a concatenation (R6). -/
def place {n : Nat} (v : BitVec n) (lo : Nat) : Word := v.setWidth 32 <<< lo

/-- `sext_N(v)` (R7): replicate the most significant bit up to 32 bits. -/
def sext {n : Nat} (v : BitVec n) : Word := v.signExtend 32

/-- `sext_N` of the low `n` bits of a word in which they were put together. -/
def sextLow (n : Nat) (v : Word) : Word := sext (v.setWidth n)

/-- `zext_N(v)` (R7): zeros above the N bits. -/
def zext {n : Nat} (v : BitVec n) : Word := v.setWidth 32

/-- `opcode(word) = word[6:0]` (R47). -/
def opcodeOf (w : Word) : BitVec 7 := extractBits w 6 0

/-- `rd = word[11:7]` (R48). -/
def rdOf (w : Word) : RegIdx := extractBits w 11 7

/-- `funct3 = word[14:12]` (R48). -/
def funct3Of (w : Word) : BitVec 3 := extractBits w 14 12

/-- `rs1 = word[19:15]` (R48). -/
def rs1Of (w : Word) : RegIdx := extractBits w 19 15

/-- `rs2 = word[24:20]` (R48). -/
def rs2Of (w : Word) : RegIdx := extractBits w 24 20

/-- `funct7 = word[31:25]` (R48); the same bits are `imm_upper` of a shift-immediate (R55). -/
def funct7Of (w : Word) : BitVec 7 := extractBits w 31 25

/-- `shamt = word[24:20]` of a shift-immediate (R55). -/
def shamtOf (w : Word) : BitVec 5 := extractBits w 24 20

/-- `word[31:20]`, the 12-bit field of an I-type word, which SYSTEM dispatches on (R67). -/
def imm12Of (w : Word) : BitVec 12 := extractBits w 31 20

/-- `imm_i(word) = sext_12(word[31:20])` (R50). -/
def immI (w : Word) : Word := sext (extractBits w 31 20)

/-- `imm_s(word) = sext_12(word[31:25] ++ word[11:7])` (R51). -/
def immS (w : Word) : Word := sextLow 12 (place (extractBits w 31 25) 5 ||| place (extractBits w 11 7) 0)

/-- `imm_b(word) = sext_13(word[31] ++ word[7] ++ word[30:25] ++ word[11:8] ++ 0)` (R52). -/
def immB (w : Word) : Word :=
  sextLow 13 (place (extractBits w 31 31) 12 ||| place (extractBits w 7 7) 11 ||| place (extractBits w 30 25) 5 |||
    place (extractBits w 11 8) 1)

/-- `imm_u(word) = word[31:12] ++ 0x000 = word & 0xFFFFF000` (R53, C1): the final 32-bit value, which no handler shifts again. -/
def immU (w : Word) : Word := w &&& 0xFFFFF000

/-- `imm_j(word) = sext_21(word[31] ++ word[19:12] ++ word[20] ++ word[30:21] ++ 0)` (R54). -/
def immJ (w : Word) : Word :=
  sextLow 21 (place (extractBits w 31 31) 20 ||| place (extractBits w 19 12) 12 ||| place (extractBits w 20 20) 11 |||
    place (extractBits w 30 21) 1)

/-- `is_compressed(h) = (h[1:0] != 0b11)` (R56). -/
def isCompressed (h : Half) : Bool := h.extractLsb 1 0 != 0b11#2

/-! ### Dispatch -/

/-- OP group (R63), on `(funct7, funct3)`. -/
def decodeOp (w : Word) : Decoded :=
  let rd := rdOf w
  let rs1 := rs1Of w
  let rs2 := rs2Of w
  match funct7Of w, funct3Of w with
  | 0b0000000#7, 0b000#3 => .instr (.add rd rs1 rs2)
  | 0b0100000#7, 0b000#3 => .instr (.sub rd rs1 rs2)
  | 0b0000000#7, 0b001#3 => .instr (.sll rd rs1 rs2)
  | 0b0000000#7, 0b010#3 => .instr (.slt rd rs1 rs2)
  | 0b0000000#7, 0b011#3 => .instr (.sltu rd rs1 rs2)
  | 0b0000000#7, 0b100#3 => .instr (.xor rd rs1 rs2)
  | 0b0000000#7, 0b101#3 => .instr (.srl rd rs1 rs2)
  | 0b0100000#7, 0b101#3 => .instr (.sra rd rs1 rs2)
  | 0b0000000#7, 0b110#3 => .instr (.or rd rs1 rs2)
  | 0b0000000#7, 0b111#3 => .instr (.and rd rs1 rs2)
  | 0b0000001#7, 0b000#3 => .instr (.mul rd rs1 rs2)
  | 0b0000001#7, 0b001#3 => .instr (.mulh rd rs1 rs2)
  | 0b0000001#7, 0b010#3 => .instr (.mulhsu rd rs1 rs2)
  | 0b0000001#7, 0b011#3 => .instr (.mulhu rd rs1 rs2)
  | 0b0000001#7, 0b100#3 => .instr (.div rd rs1 rs2)
  | 0b0000001#7, 0b101#3 => .instr (.divu rd rs1 rs2)
  | 0b0000001#7, 0b110#3 => .instr (.rem rd rs1 rs2)
  | 0b0000001#7, 0b111#3 => .instr (.remu rd rs1 rs2)
  | _, _ => .unknownFunct w

/-- OP-IMM group (R64), on `funct3`, and for the shifts also on `imm_upper`. -/
def decodeOpImm (w : Word) : Decoded :=
  let rd := rdOf w
  let rs1 := rs1Of w
  match funct3Of w with
  | 0b000#3 => .instr (.addi rd rs1 (immI w))
  | 0b010#3 => .instr (.slti rd rs1 (immI w))
  | 0b011#3 => .instr (.sltiu rd rs1 (immI w))
  | 0b100#3 => .instr (.xori rd rs1 (immI w))
  | 0b110#3 => .instr (.ori rd rs1 (immI w))
  | 0b111#3 => .instr (.andi rd rs1 (immI w))
  | 0b001#3 =>
    match funct7Of w with
    | 0b0000000#7 => .instr (.slli rd rs1 (shamtOf w))
    | _ => .unknownFunct w
  | 0b101#3 =>
    match funct7Of w with
    | 0b0000000#7 => .instr (.srli rd rs1 (shamtOf w))
    | 0b0100000#7 => .instr (.srai rd rs1 (shamtOf w))
    | _ => .unknownFunct w

/-- LOAD group (R65), on `funct3`. -/
def decodeLoad (w : Word) : Decoded :=
  match funct3Of w with
  | 0b000#3 => .instr (.lb (rdOf w) (rs1Of w) (immI w))
  | 0b001#3 => .instr (.lh (rdOf w) (rs1Of w) (immI w))
  | 0b010#3 => .instr (.lw (rdOf w) (rs1Of w) (immI w))
  | 0b100#3 => .instr (.lbu (rdOf w) (rs1Of w) (immI w))
  | 0b101#3 => .instr (.lhu (rdOf w) (rs1Of w) (immI w))
  | _ => .unknownFunct w

/-- JALR group (R66, D17), on `funct3`. -/
def decodeJalr (w : Word) : Decoded :=
  match funct3Of w with
  | 0b000#3 => .instr (.jalr (rdOf w) (rs1Of w) (immI w))
  | _ => .unknownFunct w

/-- SYSTEM group (R67, R75, D9, D10), on `funct3` and `word[31:20]`; `rd` and `rs1` are not examined. -/
def decodeSystem (w : Word) : Decoded :=
  match funct3Of w, imm12Of w with
  | 0b000#3, 0x000#12 => .instr (.ecall (rdOf w) (rs1Of w))
  | 0b000#3, 0x001#12 => .instr (.ebreak (rdOf w) (rs1Of w))
  | _, _ => .unknownFunct w

/-- STORE group (R68), on `funct3`. -/
def decodeStore (w : Word) : Decoded :=
  match funct3Of w with
  | 0b000#3 => .instr (.sb (rs1Of w) (rs2Of w) (immS w))
  | 0b001#3 => .instr (.sh (rs1Of w) (rs2Of w) (immS w))
  | 0b010#3 => .instr (.sw (rs1Of w) (rs2Of w) (immS w))
  | _ => .unknownFunct w

/-- BRANCH group (R69), on `funct3`. -/
def decodeBranch (w : Word) : Decoded :=
  match funct3Of w with
  | 0b000#3 => .instr (.beq (rs1Of w) (rs2Of w) (immB w))
  | 0b001#3 => .instr (.bne (rs1Of w) (rs2Of w) (immB w))
  | 0b100#3 => .instr (.blt (rs1Of w) (rs2Of w) (immB w))
  | 0b101#3 => .instr (.bge (rs1Of w) (rs2Of w) (immB w))
  | 0b110#3 => .instr (.bltu (rs1Of w) (rs2Of w) (immB w))
  | 0b111#3 => .instr (.bgeu (rs1Of w) (rs2Of w) (immB w))
  | _ => .unknownFunct w

/-- The dispatch of a word (R60, R61, R85): the opcode selects one of ten groups, and each group its instruction; a word of no
group is `unknownOpcode` (R73). It reads only the word. -/
def decodeWord (w : Word) : Decoded :=
  match opcodeOf w with
  | 0x33#7 => decodeOp w
  | 0x13#7 => decodeOpImm w
  | 0x03#7 => decodeLoad w
  | 0x67#7 => decodeJalr w
  | 0x73#7 => decodeSystem w
  | 0x23#7 => decodeStore w
  | 0x63#7 => decodeBranch w
  | 0x6F#7 => .instr (.jal (rdOf w) (immJ w))
  | 0x37#7 => .instr (.lui (rdOf w) (immU w))
  | 0x17#7 => .instr (.auipc (rdOf w) (immU w))
  | _ => .unknownOpcode w

/-! ### Bytes -/

/-- The half-word of two bytes in ascending address order, little-endian: `M[a] | (M[a+1] << 8)` (R27, R32). -/
def halfOfBytes (b0 b1 : Byte) : Half := b0.setWidth 16 ||| b1.setWidth 16 <<< 8

/-- The word of four bytes in ascending address order, little-endian:
`M[a] | (M[a+1] << 8) | (M[a+2] << 16) | (M[a+3] << 24)` (R27, R28, R33). -/
def wordOfBytes (b0 b1 b2 b3 : Byte) : Word := zext b0 ||| zext b1 <<< 8 ||| zext b2 <<< 16 ||| zext b3 <<< 24

/-- The low byte of a word (R34). -/
def bytesOfByte (v : Word) : List Byte := [extractBits v 7 0]

/-- The low two bytes of a word in ascending address order (R35). -/
def bytesOfHalf (v : Word) : List Byte := [extractBits v 7 0, extractBits v 15 8]

/-- The four bytes of a word in ascending address order (R36). -/
def bytesOfWord (v : Word) : List Byte :=
  [extractBits v 7 0, extractBits v 15 8, extractBits v 23 16, extractBits v 31 24]

/-- What a list of bytes begins with, in the order the fetch tests it (R83): the half-word, the compressed test, the word. -/
def decodeBytes : List Byte → DecodedBytes
  | b0 :: b1 :: rest =>
    if isCompressed (halfOfBytes b0 b1) then .compressed (halfOfBytes b0 b1) rest
    else match rest with
      | b2 :: b3 :: rest' => .word (decodeWord (wordOfBytes b0 b1 b2 b3)) rest'
      | _ => .truncated
  | _ => .truncated

/-- The instruction read from one whose bits are `w`, bit 0 the least significant of its first byte; bits at `nbits` and above
are 0. Every row of the table has 32 bits. -/
def decodeTableWord (nbits w : Nat) : Option Instr :=
  match decodeBytes (bytesOfWord (BitVec.ofNat 32 (w % 2 ^ nbits))) with
  | .word (.instr i) _ => some i
  | _ => none

/-! ### The encoder -/

/-- R-type (R49); also the shift-immediates, whose `shamt` stands where `rs2` does (R55). -/
def encodeR (funct7 : BitVec 7) (rs2 rs1 : RegIdx) (funct3 : BitVec 3) (rd : RegIdx) (opcode : BitVec 7) : Word :=
  place funct7 25 ||| place rs2 20 ||| place rs1 15 ||| place funct3 12 ||| place rd 7 ||| place opcode 0

/-- The bits of an I-type immediate: `imm[11:0]` in 31:20, all other bits 0 (R50, R58). -/
def placeImmI (o : Word) : Word := place (extractBits o 11 0) 20

/-- The bits of an S-type immediate: `imm[11:5]` in 31:25 and `imm[4:0]` in 11:7 (R51, R58). -/
def placeImmS (o : Word) : Word := place (extractBits o 11 5) 25 ||| place (extractBits o 4 0) 7

/-- The bits of a B-type offset: bit 31 = `o[12]`, 30:25 = `o[10:5]`, 11:8 = `o[4:1]`, 7 = `o[11]` (R52, R58). -/
def placeImmB (o : Word) : Word :=
  place (extractBits o 12 12) 31 ||| place (extractBits o 10 5) 25 ||| place (extractBits o 4 1) 8 |||
    place (extractBits o 11 11) 7

/-- The bits of a U-type immediate: `imm[31:12]` in place (R53). -/
def placeImmU (o : Word) : Word := place (extractBits o 31 12) 12

/-- The bits of a J-type offset: bit 31 = `o[20]`, 30:21 = `o[10:1]`, 20 = `o[11]`, 19:12 = `o[19:12]` (R54, R58). -/
def placeImmJ (o : Word) : Word :=
  place (extractBits o 20 20) 31 ||| place (extractBits o 10 1) 21 ||| place (extractBits o 11 11) 20 |||
    place (extractBits o 19 12) 12

/-- `encode_b_imm(off)` (R58). -/
def encodeBImm (off : Int) : Word := placeImmB (BitVec.ofInt 32 off)

/-- `encode_j_imm(off)` (R58). -/
def encodeJImm (off : Int) : Word := placeImmJ (BitVec.ofInt 32 off)

/-- The I-type encoder of an immediate (R58). -/
def encodeIImm (off : Int) : Word := placeImmI (BitVec.ofInt 32 off)

/-- The S-type encoder of an immediate (R58). -/
def encodeSImm (off : Int) : Word := placeImmS (BitVec.ofInt 32 off)

/-- I-type (R50). -/
def encodeI (imm : Word) (rs1 : RegIdx) (funct3 : BitVec 3) (rd : RegIdx) (opcode : BitVec 7) : Word :=
  placeImmI imm ||| place rs1 15 ||| place funct3 12 ||| place rd 7 ||| place opcode 0

/-- S-type (R51). -/
def encodeS (imm : Word) (rs2 rs1 : RegIdx) (funct3 : BitVec 3) (opcode : BitVec 7) : Word :=
  placeImmS imm ||| place rs2 20 ||| place rs1 15 ||| place funct3 12 ||| place opcode 0

/-- B-type (R52). -/
def encodeB (imm : Word) (rs2 rs1 : RegIdx) (funct3 : BitVec 3) (opcode : BitVec 7) : Word :=
  placeImmB imm ||| place rs2 20 ||| place rs1 15 ||| place funct3 12 ||| place opcode 0

/-- U-type (R53). -/
def encodeU (imm : Word) (rd : RegIdx) (opcode : BitVec 7) : Word := placeImmU imm ||| place rd 7 ||| place opcode 0

/-- J-type (R54). -/
def encodeJ (imm : Word) (rd : RegIdx) (opcode : BitVec 7) : Word := placeImmJ imm ||| place rd 7 ||| place opcode 0

/-- The word of a well-formed instruction, from the dispatch tables of R61 and R63 to R72. -/
def encode : Instr → Word
  | .add rd rs1 rs2 => encodeR 0b0000000#7 rs2 rs1 0b000#3 rd 0x33#7
  | .sub rd rs1 rs2 => encodeR 0b0100000#7 rs2 rs1 0b000#3 rd 0x33#7
  | .sll rd rs1 rs2 => encodeR 0b0000000#7 rs2 rs1 0b001#3 rd 0x33#7
  | .slt rd rs1 rs2 => encodeR 0b0000000#7 rs2 rs1 0b010#3 rd 0x33#7
  | .sltu rd rs1 rs2 => encodeR 0b0000000#7 rs2 rs1 0b011#3 rd 0x33#7
  | .xor rd rs1 rs2 => encodeR 0b0000000#7 rs2 rs1 0b100#3 rd 0x33#7
  | .srl rd rs1 rs2 => encodeR 0b0000000#7 rs2 rs1 0b101#3 rd 0x33#7
  | .sra rd rs1 rs2 => encodeR 0b0100000#7 rs2 rs1 0b101#3 rd 0x33#7
  | .or rd rs1 rs2 => encodeR 0b0000000#7 rs2 rs1 0b110#3 rd 0x33#7
  | .and rd rs1 rs2 => encodeR 0b0000000#7 rs2 rs1 0b111#3 rd 0x33#7
  | .addi rd rs1 imm => encodeI imm rs1 0b000#3 rd 0x13#7
  | .slti rd rs1 imm => encodeI imm rs1 0b010#3 rd 0x13#7
  | .sltiu rd rs1 imm => encodeI imm rs1 0b011#3 rd 0x13#7
  | .xori rd rs1 imm => encodeI imm rs1 0b100#3 rd 0x13#7
  | .ori rd rs1 imm => encodeI imm rs1 0b110#3 rd 0x13#7
  | .andi rd rs1 imm => encodeI imm rs1 0b111#3 rd 0x13#7
  | .slli rd rs1 shamt => encodeR 0b0000000#7 shamt rs1 0b001#3 rd 0x13#7
  | .srli rd rs1 shamt => encodeR 0b0000000#7 shamt rs1 0b101#3 rd 0x13#7
  | .srai rd rs1 shamt => encodeR 0b0100000#7 shamt rs1 0b101#3 rd 0x13#7
  | .lb rd rs1 imm => encodeI imm rs1 0b000#3 rd 0x03#7
  | .lh rd rs1 imm => encodeI imm rs1 0b001#3 rd 0x03#7
  | .lw rd rs1 imm => encodeI imm rs1 0b010#3 rd 0x03#7
  | .lbu rd rs1 imm => encodeI imm rs1 0b100#3 rd 0x03#7
  | .lhu rd rs1 imm => encodeI imm rs1 0b101#3 rd 0x03#7
  | .sb rs1 rs2 imm => encodeS imm rs2 rs1 0b000#3 0x23#7
  | .sh rs1 rs2 imm => encodeS imm rs2 rs1 0b001#3 0x23#7
  | .sw rs1 rs2 imm => encodeS imm rs2 rs1 0b010#3 0x23#7
  | .beq rs1 rs2 imm => encodeB imm rs2 rs1 0b000#3 0x63#7
  | .bne rs1 rs2 imm => encodeB imm rs2 rs1 0b001#3 0x63#7
  | .blt rs1 rs2 imm => encodeB imm rs2 rs1 0b100#3 0x63#7
  | .bge rs1 rs2 imm => encodeB imm rs2 rs1 0b101#3 0x63#7
  | .bltu rs1 rs2 imm => encodeB imm rs2 rs1 0b110#3 0x63#7
  | .bgeu rs1 rs2 imm => encodeB imm rs2 rs1 0b111#3 0x63#7
  | .jal rd imm => encodeJ imm rd 0x6F#7
  | .jalr rd rs1 imm => encodeI imm rs1 0b000#3 rd 0x67#7
  | .lui rd imm => encodeU imm rd 0x37#7
  | .auipc rd imm => encodeU imm rd 0x17#7
  | .ecall rd rs1 => encodeI 0x000 rs1 0b000#3 rd 0x73#7
  | .ebreak rd rs1 => encodeI 0x001 rs1 0b000#3 rd 0x73#7
  | .mul rd rs1 rs2 => encodeR 0b0000001#7 rs2 rs1 0b000#3 rd 0x33#7
  | .mulh rd rs1 rs2 => encodeR 0b0000001#7 rs2 rs1 0b001#3 rd 0x33#7
  | .mulhsu rd rs1 rs2 => encodeR 0b0000001#7 rs2 rs1 0b010#3 rd 0x33#7
  | .mulhu rd rs1 rs2 => encodeR 0b0000001#7 rs2 rs1 0b011#3 rd 0x33#7
  | .div rd rs1 rs2 => encodeR 0b0000001#7 rs2 rs1 0b100#3 rd 0x33#7
  | .divu rd rs1 rs2 => encodeR 0b0000001#7 rs2 rs1 0b101#3 rd 0x33#7
  | .rem rd rs1 rs2 => encodeR 0b0000001#7 rs2 rs1 0b110#3 rd 0x33#7
  | .remu rd rs1 rs2 => encodeR 0b0000001#7 rs2 rs1 0b111#3 rd 0x33#7

/-! ### The opcode table -/

/-- spec/opcode_table.json's rows with R-type, shift-immediate and SYSTEM patterns. -/
def opcodeRowsFunct7 : List OpcodeRow := [
  ⟨"add", 0x00000033, 0xFE00707F⟩,
  ⟨"sub", 0x40000033, 0xFE00707F⟩,
  ⟨"sll", 0x00001033, 0xFE00707F⟩,
  ⟨"slt", 0x00002033, 0xFE00707F⟩,
  ⟨"sltu", 0x00003033, 0xFE00707F⟩,
  ⟨"xor", 0x00004033, 0xFE00707F⟩,
  ⟨"srl", 0x00005033, 0xFE00707F⟩,
  ⟨"sra", 0x40005033, 0xFE00707F⟩,
  ⟨"or", 0x00006033, 0xFE00707F⟩,
  ⟨"and", 0x00007033, 0xFE00707F⟩,
  ⟨"slli", 0x00001013, 0xFE00707F⟩,
  ⟨"srli", 0x00005013, 0xFE00707F⟩,
  ⟨"srai", 0x40005013, 0xFE00707F⟩,
  ⟨"ecall", 0x00000073, 0xFFF0707F⟩,
  ⟨"ebreak", 0x00100073, 0xFFF0707F⟩,
  ⟨"mul", 0x02000033, 0xFE00707F⟩,
  ⟨"mulh", 0x02001033, 0xFE00707F⟩,
  ⟨"mulhsu", 0x02002033, 0xFE00707F⟩,
  ⟨"mulhu", 0x02003033, 0xFE00707F⟩,
  ⟨"div", 0x02004033, 0xFE00707F⟩,
  ⟨"divu", 0x02005033, 0xFE00707F⟩,
  ⟨"rem", 0x02006033, 0xFE00707F⟩,
  ⟨"remu", 0x02007033, 0xFE00707F⟩]

/-- The rows whose pattern fixes only the opcode, or the opcode and funct3. -/
def opcodeRowsFunct3 : List OpcodeRow := [
  ⟨"addi", 0x00000013, 0x0000707F⟩,
  ⟨"slti", 0x00002013, 0x0000707F⟩,
  ⟨"sltiu", 0x00003013, 0x0000707F⟩,
  ⟨"xori", 0x00004013, 0x0000707F⟩,
  ⟨"ori", 0x00006013, 0x0000707F⟩,
  ⟨"andi", 0x00007013, 0x0000707F⟩,
  ⟨"lb", 0x00000003, 0x0000707F⟩,
  ⟨"lh", 0x00001003, 0x0000707F⟩,
  ⟨"lw", 0x00002003, 0x0000707F⟩,
  ⟨"lbu", 0x00004003, 0x0000707F⟩,
  ⟨"lhu", 0x00005003, 0x0000707F⟩,
  ⟨"sb", 0x00000023, 0x0000707F⟩,
  ⟨"sh", 0x00001023, 0x0000707F⟩,
  ⟨"sw", 0x00002023, 0x0000707F⟩,
  ⟨"beq", 0x00000063, 0x0000707F⟩,
  ⟨"bne", 0x00001063, 0x0000707F⟩,
  ⟨"blt", 0x00004063, 0x0000707F⟩,
  ⟨"bge", 0x00005063, 0x0000707F⟩,
  ⟨"bltu", 0x00006063, 0x0000707F⟩,
  ⟨"bgeu", 0x00007063, 0x0000707F⟩,
  ⟨"jal", 0x0000006F, 0x0000007F⟩,
  ⟨"jalr", 0x00000067, 0x0000707F⟩,
  ⟨"lui", 0x00000037, 0x0000007F⟩,
  ⟨"auipc", 0x00000017, 0x0000007F⟩]

/-- The 47 rows of spec/opcode_table.json: mnemonic, match, mask (R92, R186 (b)). -/
def opcodeTable : List OpcodeRow := opcodeRowsFunct7 ++ opcodeRowsFunct3

end Sys2Proof
end

