-- ==== Sys2Proof/Machine/Ops.lean ====
section
/-! DEFINITION. The named operations over registers, pc and memory (spec/10_state.md, spec/20_memory.md), and the shared ends
of an instruction: falling through, redirecting, raising a condition, and the PC mux (spec/40_step_and_dispatch.md R84). -/

namespace Sys2Proof.Machine

/-! ### Registers and pc -/

/-- `x[i]` (R7, R11): register 0 reads 0 whatever was written, the others read what they hold (R13). -/
def State.readReg (s : State) (r : RegIdx) : Word :=
  if r = 0#5 then 0 else s.regs[r.toNat]'(r.isLt)

/-- `x[i] <- v`, the single write accessor (R12): a write to register 0 is discarded. -/
def State.writeReg (s : State) (r : RegIdx) (v : Word) : State :=
  if r = 0#5 then s else { s with regs := s.regs.set r.toNat v r.isLt }

/-- `pc <- t` (R7, R16). -/
def State.setPc (s : State) (t : Word) : State := { s with pc := t }

/-- The state with its memory replaced; every store goes through it. -/
def State.setMem (s : State) (m : Memory) : State := { s with mem := m }

/-! ### Memory -/

/-- The byte a list of cells holds at an address. -/
def cellAt : List Host.Cell → Nat → Byte
  | [], _ => Config.unlistedByte
  | (k, b) :: rest, a => if k = a then b else cellAt rest a

/-- The cells with one byte written: the place is kept in order, and a byte equal to what an unlisted address reads as is not
listed. -/
def setCell : List Host.Cell → Nat → Byte → List Host.Cell
  | [], a, b => if b = Config.unlistedByte then [] else [(a, b)]
  | (k, c) :: rest, a, b =>
    if a < k then (if b = Config.unlistedByte then (k, c) :: rest else (a, b) :: (k, c) :: rest)
    else if a = k then (if b = Config.unlistedByte then rest else (a, b) :: rest)
    else (k, c) :: setCell rest a b

/-- The cells are in canonical form for a memory of `size` bytes, from address `lo` on: strictly rising, below `size`, none
equal to what an unlisted address reads as. -/
def cellsWf (size : Nat) : Nat → List Host.Cell → Bool
  | _, [] => true
  | lo, (a, b) :: rest => decide (lo ≤ a) && decide (a < size) && (b != Config.unlistedByte) && cellsWf size (a + 1) rest

/-- The memory is well-formed: MEM_SIZE is at most 2^32 (R5, D20) and the cells are in canonical form. -/
def Memory.wf (m : Memory) : Bool := decide (m.size ≤ 2 ^ 32) && cellsWf m.size 0 m.cells

/-- `M[a]` (R18). -/
def Memory.byteAt (m : Memory) (a : Nat) : Byte := cellAt m.cells a

/-- `M[a] := b` for `a < MEM_SIZE`; addresses from MEM_SIZE up name no byte (R26). -/
def Memory.setByte (m : Memory) (a : Nat) (b : Byte) : Memory :=
  if a < m.size then { m with cells := setCell m.cells a b } else m

/-- Bytes written from address `a` upward. -/
def Memory.setBytes (m : Memory) (a : Nat) : List Byte → Memory
  | [] => m
  | b :: rest => (m.setByte a b).setBytes (a + 1) rest

/-- `InBounds(addr, n)` (R30): the sum is taken in unbounded integers (D13), so a span never wraps to address 0. -/
def Memory.inBounds (m : Memory) (addr : Word) (n : Nat) : Bool := decide (addr.toNat + n ≤ m.size)

/-- A read of `n` bytes: checked before any byte is touched (R30). -/
def Memory.checked {α : Type} (m : Memory) (addr : Word) (n : Nat) (v : α) : Except Fault α :=
  if m.inBounds addr n then .ok v else .error (.memoryOutOfBounds addr n)

/-- `load_byte(addr)` (R31). -/
def Memory.loadByte (m : Memory) (addr : Word) : Except Fault Byte :=
  m.checked addr 1 (m.byteAt addr.toNat)

/-- `load_half(addr)` (R32), any alignment (R37). -/
def Memory.loadHalf (m : Memory) (addr : Word) : Except Fault Half :=
  m.checked addr 2 (halfOfBytes (m.byteAt addr.toNat) (m.byteAt (addr.toNat + 1)))

/-- `load_word(addr)` (R33), any alignment (R37). -/
def Memory.loadWord (m : Memory) (addr : Word) : Except Fault Word :=
  m.checked addr 4 (wordOfBytes (m.byteAt addr.toNat) (m.byteAt (addr.toNat + 1)) (m.byteAt (addr.toNat + 2))
    (m.byteAt (addr.toNat + 3)))

/-- `store_byte(addr, v)` (R34): bits 31:8 of `v` are ignored. -/
def Memory.storeByte (m : Memory) (addr v : Word) : Except Fault Memory :=
  m.checked addr 1 (m.setBytes addr.toNat (bytesOfByte v))

/-- `store_half(addr, v)` (R35): bits 31:16 of `v` are ignored. -/
def Memory.storeHalf (m : Memory) (addr v : Word) : Except Fault Memory :=
  m.checked addr 2 (m.setBytes addr.toNat (bytesOfHalf v))

/-- `store_word(addr, v)` (R36). -/
def Memory.storeWord (m : Memory) (addr v : Word) : Except Fault Memory :=
  m.checked addr 4 (m.setBytes addr.toNat (bytesOfWord v))

/-! ### The ends of an instruction -/

/-- `raise <Condition>(info)` (R7, R166): the one operation by which a condition is taken. It saves nothing, transfers control
nowhere and changes no state; the run ends. CORE has no return from a condition (R169). -/
def raise (c : Fault) : Interp := .raised c

/-- `x[rd] <- v; redirected <- false`: the end of every ALU, load and upper-immediate instruction. -/
def writeBack (s : State) (rd : RegIdx) (v : Word) : Interp := .sequential (s.writeReg rd v)

/-- `if cond then (pc <- pc + imm; redirected <- true) else redirected <- false`, modulo 2^32: the template of a branch (R128). -/
def branch (cond : Bool) (imm : Word) (s : State) : Interp :=
  if cond then .redirected (s.setPc (s.pc + imm)) else .sequential s

/-- `x[rd] <- pc + 4; pc <- target; redirected <- true`: the common end of `jal` and `jalr` (R136 to R138). The target is
computed by the caller, from the registers before the link is written (R87). -/
def jump (s : State) (rd : RegIdx) (target : Word) : Interp :=
  .redirected ((s.writeReg rd (s.pc + 4)).setPc target)

/-- The redirected flag that `interpret` returns (R81); none when it does not return. -/
def Interp.flag : Interp → Option Bool
  | .sequential _ => some false
  | .redirected _ => some true
  | .raised _ => none

/-- The PC mux (R84): a redirected pc stays as the handler wrote it, a sequential one advances by 4 modulo 2^32 (D4, log entry
8); a condition ends the run. -/
def pcMux : Interp → Host.Outcome State Fault Refusal
  | .sequential s => .next (s.setPc (s.pc + 4))
  | .redirected s => .next s
  | .raised c => .fault c

end Sys2Proof.Machine
end

