-- ==== Sys2Proof/Machine/Operands.lean ====
section
/-! DEFINITION. The operand forms of CORE (spec/30_encoding.md R49 to R55): register and register, register and immediate,
register-held shift amount, base and displacement. -/

namespace Sys2Proof.Machine

/-- A register-held shift amount: the low 5 bits, `x[rs2] & 0x1F` (R96). -/
def shiftAmount (v : Word) : Nat := (v &&& 0x1F).toNat

/-- The effective address `(x[rs1] + imm) mod 2^32` of loads and stores (R116, R123), and the sum `jalr` jumps to (R137). -/
def effAddr (rs1 : RegIdx) (imm : Word) (s : State) : Word := s.readReg rs1 + imm

/-- A register-register ALU instruction computing `f x[rs1] x[rs2]` (R93). -/
def aluReg (f : Word → Word → Word) (rd rs1 rs2 : RegIdx) (s : State) : Interp :=
  writeBack s rd (f (s.readReg rs1) (s.readReg rs2))

/-- A register-immediate ALU instruction computing `f x[rs1] imm` (R105). -/
def aluImm (f : Word → Word → Word) (rd rs1 : RegIdx) (imm : Word) (s : State) : Interp :=
  writeBack s rd (f (s.readReg rs1) imm)

/-- A shift-immediate instruction computing `f x[rs1] shamt`, `shamt` in 0..31 (R105, R112). -/
def aluShift (f : Word → Nat → Word) (rd rs1 : RegIdx) (shamt : BitVec 5) (s : State) : Interp :=
  writeBack s rd (f (s.readReg rs1) shamt.toNat)

/-- A load (R116): the address from the old base, the checked access, and only then the write of rd. -/
def load {n : Nat} (access : Memory → Word → Except Fault (BitVec n)) (extend : BitVec n → Word)
    (rd rs1 : RegIdx) (imm : Word) (s : State) : Interp :=
  match access s.mem (effAddr rs1 imm s) with
  | .ok v => writeBack s rd (extend v)
  | .error c => raise c

/-- A store (R123): data from rs2, base rs1, the bounds checked before any byte is written. -/
def store (access : Memory → Word → Word → Except Fault Memory)
    (rs1 rs2 : RegIdx) (imm : Word) (s : State) : Interp :=
  match access s.mem (effAddr rs1 imm s) (s.readReg rs2) with
  | .ok m => .sequential (s.setMem m)
  | .error c => raise c

end Sys2Proof.Machine
end

