-- ==== Sys2Proof/Machine/AluImm.lean ====
section
/-! DEFINITION. The register-immediate ALU and shift-immediate instructions, OP-IMM group (spec/42_alu_imm.md R105 to R115). None raises a
condition; none redirects. -/

namespace Sys2Proof.Machine

/-- The handler of `addi` (R106): `x[rd] <- x[rs1] + imm` modulo 2^32. -/
def handleAddi (rd rs1 : RegIdx) (imm : Word) (s : State) : Interp :=
  aluImm (fun a b => a + b) rd rs1 imm s

/-- `addi` in a step: its handler, then the PC mux (R84, R85). -/
def execAddi (rd rs1 : RegIdx) (imm : Word) (s : State) : Host.Outcome State Fault Refusal :=
  pcMux (handleAddi rd rs1 imm s)

/-- The handler of `slti` (R107): `x[rd] <- if signed(x[rs1]) < signed(imm) then 1 else 0`. -/
def handleSlti (rd rs1 : RegIdx) (imm : Word) (s : State) : Interp :=
  aluImm (fun a b => boolWord (ltSigned a b)) rd rs1 imm s

/-- `slti` in a step: its handler, then the PC mux (R84, R85). -/
def execSlti (rd rs1 : RegIdx) (imm : Word) (s : State) : Host.Outcome State Fault Refusal :=
  pcMux (handleSlti rd rs1 imm s)

/-- The handler of `sltiu` (R108): `x[rd] <- if x[rs1] <u imm then 1 else 0`, the immediate sign-extended and read as unsigned. -/
def handleSltiu (rd rs1 : RegIdx) (imm : Word) (s : State) : Interp :=
  aluImm (fun a b => boolWord (ltUnsigned a b)) rd rs1 imm s

/-- `sltiu` in a step: its handler, then the PC mux (R84, R85). -/
def execSltiu (rd rs1 : RegIdx) (imm : Word) (s : State) : Host.Outcome State Fault Refusal :=
  pcMux (handleSltiu rd rs1 imm s)

/-- The handler of `xori` (R109): `x[rd] <- x[rs1] ^ imm`. -/
def handleXori (rd rs1 : RegIdx) (imm : Word) (s : State) : Interp :=
  aluImm (fun a b => a ^^^ b) rd rs1 imm s

/-- `xori` in a step: its handler, then the PC mux (R84, R85). -/
def execXori (rd rs1 : RegIdx) (imm : Word) (s : State) : Host.Outcome State Fault Refusal :=
  pcMux (handleXori rd rs1 imm s)

/-- The handler of `ori` (R110): `x[rd] <- x[rs1] | imm`. -/
def handleOri (rd rs1 : RegIdx) (imm : Word) (s : State) : Interp :=
  aluImm (fun a b => a ||| b) rd rs1 imm s

/-- `ori` in a step: its handler, then the PC mux (R84, R85). -/
def execOri (rd rs1 : RegIdx) (imm : Word) (s : State) : Host.Outcome State Fault Refusal :=
  pcMux (handleOri rd rs1 imm s)

/-- The handler of `andi` (R111): `x[rd] <- x[rs1] & imm`. -/
def handleAndi (rd rs1 : RegIdx) (imm : Word) (s : State) : Interp :=
  aluImm (fun a b => a &&& b) rd rs1 imm s

/-- `andi` in a step: its handler, then the PC mux (R84, R85). -/
def execAndi (rd rs1 : RegIdx) (imm : Word) (s : State) : Host.Outcome State Fault Refusal :=
  pcMux (handleAndi rd rs1 imm s)

/-- The handler of `slli` (R112): `x[rd] <- x[rs1] << shamt`. -/
def handleSlli (rd rs1 : RegIdx) (shamt : BitVec 5) (s : State) : Interp :=
  aluShift (fun a n => a <<< n) rd rs1 shamt s

/-- `slli` in a step: its handler, then the PC mux (R84, R85). -/
def execSlli (rd rs1 : RegIdx) (shamt : BitVec 5) (s : State) : Host.Outcome State Fault Refusal :=
  pcMux (handleSlli rd rs1 shamt s)

/-- The handler of `srli` (R113): `x[rd] <- x[rs1] >>u shamt`. -/
def handleSrli (rd rs1 : RegIdx) (shamt : BitVec 5) (s : State) : Interp :=
  aluShift (fun a n => a >>> n) rd rs1 shamt s

/-- `srli` in a step: its handler, then the PC mux (R84, R85). -/
def execSrli (rd rs1 : RegIdx) (shamt : BitVec 5) (s : State) : Host.Outcome State Fault Refusal :=
  pcMux (handleSrli rd rs1 shamt s)

/-- The handler of `srai` (R114): `x[rd] <- x[rs1] >>s shamt`. -/
def handleSrai (rd rs1 : RegIdx) (shamt : BitVec 5) (s : State) : Interp :=
  aluShift (fun a n => a.sshiftRight n) rd rs1 shamt s

/-- `srai` in a step: its handler, then the PC mux (R84, R85). -/
def execSrai (rd rs1 : RegIdx) (shamt : BitVec 5) (s : State) : Host.Outcome State Fault Refusal :=
  pcMux (handleSrai rd rs1 shamt s)

end Sys2Proof.Machine
end

