-- ==== Sys2Proof/Machine/AluReg.lean ====
section
/-! DEFINITION. The register-register ALU instructions, OP group (spec/41_alu_reg.md R93 to R104). None raises a condition; none redirects. -/

namespace Sys2Proof.Machine

/-- The handler of `add` (R94): `x[rd] <- x[rs1] + x[rs2]` modulo 2^32. -/
def handleAdd (rd rs1 rs2 : RegIdx) (s : State) : Interp :=
  aluReg (fun a b => a + b) rd rs1 rs2 s

/-- `add` in a step: its handler, then the PC mux (R84, R85). -/
def execAdd (rd rs1 rs2 : RegIdx) (s : State) : Host.Outcome State Fault Refusal :=
  pcMux (handleAdd rd rs1 rs2 s)

/-- The handler of `sub` (R95): `x[rd] <- x[rs1] - x[rs2]` modulo 2^32. -/
def handleSub (rd rs1 rs2 : RegIdx) (s : State) : Interp :=
  aluReg (fun a b => a - b) rd rs1 rs2 s

/-- `sub` in a step: its handler, then the PC mux (R84, R85). -/
def execSub (rd rs1 rs2 : RegIdx) (s : State) : Host.Outcome State Fault Refusal :=
  pcMux (handleSub rd rs1 rs2 s)

/-- The handler of `sll` (R96): `x[rd] <- x[rs1] << (x[rs2] & 0x1F)`. -/
def handleSll (rd rs1 rs2 : RegIdx) (s : State) : Interp :=
  aluReg (fun a b => a <<< shiftAmount b) rd rs1 rs2 s

/-- `sll` in a step: its handler, then the PC mux (R84, R85). -/
def execSll (rd rs1 rs2 : RegIdx) (s : State) : Host.Outcome State Fault Refusal :=
  pcMux (handleSll rd rs1 rs2 s)

/-- The handler of `slt` (R97): `x[rd] <- if signed(x[rs1]) < signed(x[rs2]) then 1 else 0`. -/
def handleSlt (rd rs1 rs2 : RegIdx) (s : State) : Interp :=
  aluReg (fun a b => boolWord (ltSigned a b)) rd rs1 rs2 s

/-- `slt` in a step: its handler, then the PC mux (R84, R85). -/
def execSlt (rd rs1 rs2 : RegIdx) (s : State) : Host.Outcome State Fault Refusal :=
  pcMux (handleSlt rd rs1 rs2 s)

/-- The handler of `sltu` (R98): `x[rd] <- if x[rs1] <u x[rs2] then 1 else 0`. -/
def handleSltu (rd rs1 rs2 : RegIdx) (s : State) : Interp :=
  aluReg (fun a b => boolWord (ltUnsigned a b)) rd rs1 rs2 s

/-- `sltu` in a step: its handler, then the PC mux (R84, R85). -/
def execSltu (rd rs1 rs2 : RegIdx) (s : State) : Host.Outcome State Fault Refusal :=
  pcMux (handleSltu rd rs1 rs2 s)

/-- The handler of `xor` (R99): `x[rd] <- x[rs1] ^ x[rs2]`. -/
def handleXor (rd rs1 rs2 : RegIdx) (s : State) : Interp :=
  aluReg (fun a b => a ^^^ b) rd rs1 rs2 s

/-- `xor` in a step: its handler, then the PC mux (R84, R85). -/
def execXor (rd rs1 rs2 : RegIdx) (s : State) : Host.Outcome State Fault Refusal :=
  pcMux (handleXor rd rs1 rs2 s)

/-- The handler of `srl` (R100): `x[rd] <- x[rs1] >>u (x[rs2] & 0x1F)`. -/
def handleSrl (rd rs1 rs2 : RegIdx) (s : State) : Interp :=
  aluReg (fun a b => a >>> shiftAmount b) rd rs1 rs2 s

/-- `srl` in a step: its handler, then the PC mux (R84, R85). -/
def execSrl (rd rs1 rs2 : RegIdx) (s : State) : Host.Outcome State Fault Refusal :=
  pcMux (handleSrl rd rs1 rs2 s)

/-- The handler of `sra` (R101): `x[rd] <- x[rs1] >>s (x[rs2] & 0x1F)`. -/
def handleSra (rd rs1 rs2 : RegIdx) (s : State) : Interp :=
  aluReg (fun a b => a.sshiftRight (shiftAmount b)) rd rs1 rs2 s

/-- `sra` in a step: its handler, then the PC mux (R84, R85). -/
def execSra (rd rs1 rs2 : RegIdx) (s : State) : Host.Outcome State Fault Refusal :=
  pcMux (handleSra rd rs1 rs2 s)

/-- The handler of `or` (R102): `x[rd] <- x[rs1] | x[rs2]`. -/
def handleOr (rd rs1 rs2 : RegIdx) (s : State) : Interp :=
  aluReg (fun a b => a ||| b) rd rs1 rs2 s

/-- `or` in a step: its handler, then the PC mux (R84, R85). -/
def execOr (rd rs1 rs2 : RegIdx) (s : State) : Host.Outcome State Fault Refusal :=
  pcMux (handleOr rd rs1 rs2 s)

/-- The handler of `and` (R103): `x[rd] <- x[rs1] & x[rs2]`. -/
def handleAnd (rd rs1 rs2 : RegIdx) (s : State) : Interp :=
  aluReg (fun a b => a &&& b) rd rs1 rs2 s

/-- `and` in a step: its handler, then the PC mux (R84, R85). -/
def execAnd (rd rs1 rs2 : RegIdx) (s : State) : Host.Outcome State Fault Refusal :=
  pcMux (handleAnd rd rs1 rs2 s)

end Sys2Proof.Machine
end

