-- ==== Sys2Proof/Machine/Branches.lean ====
section
/-! DEFINITION. The conditional branches, BRANCH group (spec/45_branches.md R128 to R135). The target is not checked. -/

namespace Sys2Proof.Machine

/-- The handler of `beq` (R129): taken iff `x[rs1] = x[rs2]`. -/
def handleBeq (rs1 rs2 : RegIdx) (imm : Word) (s : State) : Interp :=
  branch (decide (s.readReg rs1 = s.readReg rs2)) imm s

/-- `beq` in a step: its handler, then the PC mux (R84, R85). -/
def execBeq (rs1 rs2 : RegIdx) (imm : Word) (s : State) : Host.Outcome State Fault Refusal :=
  pcMux (handleBeq rs1 rs2 imm s)

/-- The handler of `bne` (R130): taken iff `x[rs1] != x[rs2]`. -/
def handleBne (rs1 rs2 : RegIdx) (imm : Word) (s : State) : Interp :=
  branch (decide (s.readReg rs1 ≠ s.readReg rs2)) imm s

/-- `bne` in a step: its handler, then the PC mux (R84, R85). -/
def execBne (rs1 rs2 : RegIdx) (imm : Word) (s : State) : Host.Outcome State Fault Refusal :=
  pcMux (handleBne rs1 rs2 imm s)

/-- The handler of `blt` (R131): taken iff `signed(x[rs1]) < signed(x[rs2])`. -/
def handleBlt (rs1 rs2 : RegIdx) (imm : Word) (s : State) : Interp :=
  branch (ltSigned (s.readReg rs1) (s.readReg rs2)) imm s

/-- `blt` in a step: its handler, then the PC mux (R84, R85). -/
def execBlt (rs1 rs2 : RegIdx) (imm : Word) (s : State) : Host.Outcome State Fault Refusal :=
  pcMux (handleBlt rs1 rs2 imm s)

/-- The handler of `bge` (R132): taken iff `signed(x[rs1]) >= signed(x[rs2])`. -/
def handleBge (rs1 rs2 : RegIdx) (imm : Word) (s : State) : Interp :=
  branch (!ltSigned (s.readReg rs1) (s.readReg rs2)) imm s

/-- `bge` in a step: its handler, then the PC mux (R84, R85). -/
def execBge (rs1 rs2 : RegIdx) (imm : Word) (s : State) : Host.Outcome State Fault Refusal :=
  pcMux (handleBge rs1 rs2 imm s)

/-- The handler of `bltu` (R133): taken iff `x[rs1] <u x[rs2]`. -/
def handleBltu (rs1 rs2 : RegIdx) (imm : Word) (s : State) : Interp :=
  branch (ltUnsigned (s.readReg rs1) (s.readReg rs2)) imm s

/-- `bltu` in a step: its handler, then the PC mux (R84, R85). -/
def execBltu (rs1 rs2 : RegIdx) (imm : Word) (s : State) : Host.Outcome State Fault Refusal :=
  pcMux (handleBltu rs1 rs2 imm s)

/-- The handler of `bgeu` (R134): taken iff `x[rs1] >=u x[rs2]`. -/
def handleBgeu (rs1 rs2 : RegIdx) (imm : Word) (s : State) : Interp :=
  branch (!ltUnsigned (s.readReg rs1) (s.readReg rs2)) imm s

/-- `bgeu` in a step: its handler, then the PC mux (R84, R85). -/
def execBgeu (rs1 rs2 : RegIdx) (imm : Word) (s : State) : Host.Outcome State Fault Refusal :=
  pcMux (handleBgeu rs1 rs2 imm s)

end Sys2Proof.Machine
end

