-- ==== Sys2Proof/Machine/Jumps.lean ====
section
/-! DEFINITION. The unconditional jumps (spec/46_jumps.md R136 to R139), always redirected. The target is not checked. -/

namespace Sys2Proof.Machine

/-- The handler of `jal` (R136): `x[rd] <- pc + 4; pc <- pc + imm`, both from the old pc. -/
def handleJal (rd : RegIdx) (imm : Word) (s : State) : Interp :=
  jump s rd (s.pc + imm)

/-- `jal` in a step: its handler, then the PC mux (R84, R85). -/
def execJal (rd : RegIdx) (imm : Word) (s : State) : Host.Outcome State Fault Refusal :=
  pcMux (handleJal rd imm s)

/-- The handler of `jalr` (R137): `t <- x[rs1] + imm; x[rd] <- pc + 4; pc <- t`: the target from the old rs1, bit 0 kept (D16, log entry 17). -/
def handleJalr (rd rs1 : RegIdx) (imm : Word) (s : State) : Interp :=
  jump s rd (effAddr rs1 imm s)

/-- `jalr` in a step: its handler, then the PC mux (R84, R85). -/
def execJalr (rd rs1 : RegIdx) (imm : Word) (s : State) : Host.Outcome State Fault Refusal :=
  pcMux (handleJalr rd rs1 imm s)

end Sys2Proof.Machine
end

