-- ==== Sys2Proof/Machine/Loads.lean ====
section
/-! DEFINITION. The loads, LOAD group (spec/43_loads.md R116 to R122): `ea = x[rs1] + imm` modulo 2^32, any alignment, MemoryOutOfBounds(ea,
n) with rd unchanged when the span does not fit. -/

namespace Sys2Proof.Machine

/-- The handler of `lb` (R117): `x[rd] <- sext_8(MemRead(ea, 1))`. -/
def handleLb (rd rs1 : RegIdx) (imm : Word) (s : State) : Interp :=
  load Memory.loadByte sext rd rs1 imm s

/-- `lb` in a step: its handler, then the PC mux (R84, R85). -/
def execLb (rd rs1 : RegIdx) (imm : Word) (s : State) : Host.Outcome State Fault Refusal :=
  pcMux (handleLb rd rs1 imm s)

/-- The handler of `lh` (R118): `x[rd] <- sext_16(MemRead(ea, 2))`. -/
def handleLh (rd rs1 : RegIdx) (imm : Word) (s : State) : Interp :=
  load Memory.loadHalf sext rd rs1 imm s

/-- `lh` in a step: its handler, then the PC mux (R84, R85). -/
def execLh (rd rs1 : RegIdx) (imm : Word) (s : State) : Host.Outcome State Fault Refusal :=
  pcMux (handleLh rd rs1 imm s)

/-- The handler of `lw` (R119): `x[rd] <- MemRead(ea, 4)`. -/
def handleLw (rd rs1 : RegIdx) (imm : Word) (s : State) : Interp :=
  load Memory.loadWord (fun v => v) rd rs1 imm s

/-- `lw` in a step: its handler, then the PC mux (R84, R85). -/
def execLw (rd rs1 : RegIdx) (imm : Word) (s : State) : Host.Outcome State Fault Refusal :=
  pcMux (handleLw rd rs1 imm s)

/-- The handler of `lbu` (R120): `x[rd] <- zext_8(MemRead(ea, 1))`. -/
def handleLbu (rd rs1 : RegIdx) (imm : Word) (s : State) : Interp :=
  load Memory.loadByte zext rd rs1 imm s

/-- `lbu` in a step: its handler, then the PC mux (R84, R85). -/
def execLbu (rd rs1 : RegIdx) (imm : Word) (s : State) : Host.Outcome State Fault Refusal :=
  pcMux (handleLbu rd rs1 imm s)

/-- The handler of `lhu` (R121): `x[rd] <- zext_16(MemRead(ea, 2))`. -/
def handleLhu (rd rs1 : RegIdx) (imm : Word) (s : State) : Interp :=
  load Memory.loadHalf zext rd rs1 imm s

/-- `lhu` in a step: its handler, then the PC mux (R84, R85). -/
def execLhu (rd rs1 : RegIdx) (imm : Word) (s : State) : Host.Outcome State Fault Refusal :=
  pcMux (handleLhu rd rs1 imm s)

end Sys2Proof.Machine
end

