-- ==== Sys2Proof/Machine/Stores.lean ====
section
/-! DEFINITION. The stores, STORE group (spec/44_stores.md R123 to R127): `ea = x[rs1] + imm` modulo 2^32, any alignment,
MemoryOutOfBounds(ea, n) with no byte written when the span does not fit. -/

namespace Sys2Proof.Machine

/-- The handler of `sb` (R124): `MemWrite(ea, 1, x[rs2])`. -/
def handleSb (rs1 rs2 : RegIdx) (imm : Word) (s : State) : Interp :=
  store Memory.storeByte rs1 rs2 imm s

/-- `sb` in a step: its handler, then the PC mux (R84, R85). -/
def execSb (rs1 rs2 : RegIdx) (imm : Word) (s : State) : Host.Outcome State Fault Refusal :=
  pcMux (handleSb rs1 rs2 imm s)

/-- The handler of `sh` (R125): `MemWrite(ea, 2, x[rs2])`. -/
def handleSh (rs1 rs2 : RegIdx) (imm : Word) (s : State) : Interp :=
  store Memory.storeHalf rs1 rs2 imm s

/-- `sh` in a step: its handler, then the PC mux (R84, R85). -/
def execSh (rs1 rs2 : RegIdx) (imm : Word) (s : State) : Host.Outcome State Fault Refusal :=
  pcMux (handleSh rs1 rs2 imm s)

/-- The handler of `sw` (R126): `MemWrite(ea, 4, x[rs2])`. -/
def handleSw (rs1 rs2 : RegIdx) (imm : Word) (s : State) : Interp :=
  store Memory.storeWord rs1 rs2 imm s

/-- `sw` in a step: its handler, then the PC mux (R84, R85). -/
def execSw (rs1 rs2 : RegIdx) (imm : Word) (s : State) : Host.Outcome State Fault Refusal :=
  pcMux (handleSw rs1 rs2 imm s)

end Sys2Proof.Machine
end

