-- ==== Sys2Proof/Machine/System.lean ====
section
/-! DEFINITION. The recognised-but-unexecuted instructions (spec/48_system_unimplemented.md R143 to R153): each raises
Unimplemented(kind, word) on every path and changes nothing. The word reported is the one the instruction encodes to (log
entry 18). -/

namespace Sys2Proof.Machine

/-- The handler of `ecall` (R144): `raise Unimplemented(ecall, word)`. -/
def handleEcall (rd rs1 : RegIdx) (_s : State) : Interp :=
  raise (.unimplemented (.ecall (encode (.ecall rd rs1))))

/-- `ecall` in a step: its handler, then the PC mux (R84, R85). -/
def execEcall (rd rs1 : RegIdx) (s : State) : Host.Outcome State Fault Refusal :=
  pcMux (handleEcall rd rs1 s)

/-- The handler of `ebreak` (R145): `raise Unimplemented(ebreak, word)`. -/
def handleEbreak (rd rs1 : RegIdx) (_s : State) : Interp :=
  raise (.unimplemented (.ebreak (encode (.ebreak rd rs1))))

/-- `ebreak` in a step: its handler, then the PC mux (R84, R85). -/
def execEbreak (rd rs1 : RegIdx) (s : State) : Host.Outcome State Fault Refusal :=
  pcMux (handleEbreak rd rs1 s)

/-- The handler of `mul` (R146): `raise Unimplemented(M, word)`. -/
def handleMul (rd rs1 rs2 : RegIdx) (_s : State) : Interp :=
  raise (.unimplemented (.m (encode (.mul rd rs1 rs2))))

/-- `mul` in a step: its handler, then the PC mux (R84, R85). -/
def execMul (rd rs1 rs2 : RegIdx) (s : State) : Host.Outcome State Fault Refusal :=
  pcMux (handleMul rd rs1 rs2 s)

/-- The handler of `mulh` (R147): `raise Unimplemented(M, word)`. -/
def handleMulh (rd rs1 rs2 : RegIdx) (_s : State) : Interp :=
  raise (.unimplemented (.m (encode (.mulh rd rs1 rs2))))

/-- `mulh` in a step: its handler, then the PC mux (R84, R85). -/
def execMulh (rd rs1 rs2 : RegIdx) (s : State) : Host.Outcome State Fault Refusal :=
  pcMux (handleMulh rd rs1 rs2 s)

/-- The handler of `mulhsu` (R148): `raise Unimplemented(M, word)`. -/
def handleMulhsu (rd rs1 rs2 : RegIdx) (_s : State) : Interp :=
  raise (.unimplemented (.m (encode (.mulhsu rd rs1 rs2))))

/-- `mulhsu` in a step: its handler, then the PC mux (R84, R85). -/
def execMulhsu (rd rs1 rs2 : RegIdx) (s : State) : Host.Outcome State Fault Refusal :=
  pcMux (handleMulhsu rd rs1 rs2 s)

/-- The handler of `mulhu` (R149): `raise Unimplemented(M, word)`. -/
def handleMulhu (rd rs1 rs2 : RegIdx) (_s : State) : Interp :=
  raise (.unimplemented (.m (encode (.mulhu rd rs1 rs2))))

/-- `mulhu` in a step: its handler, then the PC mux (R84, R85). -/
def execMulhu (rd rs1 rs2 : RegIdx) (s : State) : Host.Outcome State Fault Refusal :=
  pcMux (handleMulhu rd rs1 rs2 s)

/-- The handler of `div` (R150): `raise Unimplemented(M, word)`. -/
def handleDiv (rd rs1 rs2 : RegIdx) (_s : State) : Interp :=
  raise (.unimplemented (.m (encode (.div rd rs1 rs2))))

/-- `div` in a step: its handler, then the PC mux (R84, R85). -/
def execDiv (rd rs1 rs2 : RegIdx) (s : State) : Host.Outcome State Fault Refusal :=
  pcMux (handleDiv rd rs1 rs2 s)

/-- The handler of `divu` (R151): `raise Unimplemented(M, word)`. -/
def handleDivu (rd rs1 rs2 : RegIdx) (_s : State) : Interp :=
  raise (.unimplemented (.m (encode (.divu rd rs1 rs2))))

/-- `divu` in a step: its handler, then the PC mux (R84, R85). -/
def execDivu (rd rs1 rs2 : RegIdx) (s : State) : Host.Outcome State Fault Refusal :=
  pcMux (handleDivu rd rs1 rs2 s)

/-- The handler of `rem` (R152): `raise Unimplemented(M, word)`. -/
def handleRem (rd rs1 rs2 : RegIdx) (_s : State) : Interp :=
  raise (.unimplemented (.m (encode (.rem rd rs1 rs2))))

/-- `rem` in a step: its handler, then the PC mux (R84, R85). -/
def execRem (rd rs1 rs2 : RegIdx) (s : State) : Host.Outcome State Fault Refusal :=
  pcMux (handleRem rd rs1 rs2 s)

/-- The handler of `remu` (R153): `raise Unimplemented(M, word)`. -/
def handleRemu (rd rs1 rs2 : RegIdx) (_s : State) : Interp :=
  raise (.unimplemented (.m (encode (.remu rd rs1 rs2))))

/-- `remu` in a step: its handler, then the PC mux (R84, R85). -/
def execRemu (rd rs1 rs2 : RegIdx) (s : State) : Host.Outcome State Fault Refusal :=
  pcMux (handleRemu rd rs1 rs2 s)

end Sys2Proof.Machine
end

