-- ==== Sys2Proof/Machine/Upper.lean ====
section
/-! DEFINITION. The upper-immediate instructions (spec/47_upper_imm.md R140 to R142): the decoder has positioned the immediate (R53, C1). -/

namespace Sys2Proof.Machine

/-- The handler of `lui` (R140): `x[rd] <- imm_u(word)`. -/
def handleLui (rd : RegIdx) (imm : Word) (s : State) : Interp :=
  writeBack s rd imm

/-- `lui` in a step: its handler, then the PC mux (R84, R85). -/
def execLui (rd : RegIdx) (imm : Word) (s : State) : Host.Outcome State Fault Refusal :=
  pcMux (handleLui rd imm s)

/-- The handler of `auipc` (R141): `x[rd] <- pc + imm_u(word)` modulo 2^32. -/
def handleAuipc (rd : RegIdx) (imm : Word) (s : State) : Interp :=
  writeBack s rd (s.pc + imm)

/-- `auipc` in a step: its handler, then the PC mux (R84, R85). -/
def execAuipc (rd : RegIdx) (imm : Word) (s : State) : Host.Outcome State Fault Refusal :=
  pcMux (handleAuipc rd imm s)

end Sys2Proof.Machine
end

