-- ==== Sys2Proof/Machine/Fetch.lean ====
section
/-! DEFINITION. The fetch (spec/40_step_and_dispatch.md R83, D6): the 16-bit prefetch, the compressed test, the 32-bit read, all
from the one memory that loads and stores use (R25, D5); and the placing of a word where the next fetch reads it. -/

namespace Sys2Proof.Machine

/-- The word at pc, or the condition the fetch raises, tested in the order of R83 and R165. No alignment is needed (R38). -/
def fetch (s : State) : Except Fault Word :=
  match s.mem.loadHalf s.pc with
  | .error c => .error c
  | .ok h =>
    if isCompressed h then .error (.unimplemented (.compressed h))
    else s.mem.loadWord s.pc

/-- The state with the word's four bytes stored at pc, in the byte order the fetch reads (R28). -/
def placeWord (s : State) (w : Word) : State := s.setMem (s.mem.setBytes s.pc.toNat (bytesOfWord w))

end Sys2Proof.Machine
end

