-- ==== Sys2Proof/Machine/Step.lean ====
section
/-! DEFINITION. One step of CORE (spec/40_step_and_dispatch.md R85): fetch, dispatch, the instruction with its PC mux. A
condition is a fault of the step and leaves nothing changed (R86). -/

namespace Sys2Proof.Machine

/-- One iteration of the fetch loop (R85). -/
def step (s : State) : Host.Outcome State Fault Refusal :=
  match fetch s with
  | .error c => .fault c
  | .ok w =>
    match decodeWord w with
    | .instr i => exec i s
    | .unknownOpcode x => .fault (.unknownOpcode x)
    | .unknownFunct x => .fault (.unknownFunct x)

/-- The state with the instruction of bits `w` stored at pc, bits at `nbits` and above 0, so that the next step fetches it. It
stands for loading a program (R176): log entry 5. -/
def State.withFetchWord (s : State) (nbits w : Nat) : State :=
  placeWord s (BitVec.ofNat 32 (w % 2 ^ nbits))

end Sys2Proof.Machine
end

