-- ==== Sys2Proof/Machine/Assembler.lean ====
section
/-! DEFINITION. Software's view of the instructions (spec/30_encoding.md R78, R79; spec/47_upper_imm.md R142): the
pseudo-instructions with their expansions, the `lui`/`addi` pair for a constant, and the assembler spelling of an instruction.
Nothing of the machine depends on this file. The expansions and the spelling are the standard ones the rules give (G7):
UNVERIFIED against the source, safe: log entry 26. -/

namespace Sys2Proof

/-- The pseudo-instructions of R79. Register names stand as there; an offset is a signed byte offset as a 32-bit pattern. -/
inductive Pseudo where
  | nop
  | mv (rd rs : RegIdx)
  | li (rd : RegIdx) (imm : Word)
  | not (rd rs : RegIdx)
  | neg (rd rs : RegIdx)
  | seqz (rd rs : RegIdx)
  | snez (rd rs : RegIdx)
  | j (offset : Word)
  | jr (rs : RegIdx)
  | ret
  | beqz (rs : RegIdx) (offset : Word)
  | bnez (rs : RegIdx) (offset : Word)
  | bgt (rs rt : RegIdx) (offset : Word)
  | ble (rs rt : RegIdx) (offset : Word)
deriving DecidableEq, Repr

namespace Machine

/-- `lo12 = sext_12(imm[11:0])` (R79, R142). -/
def constLo (imm : Word) : Word := sext (extractBits imm 11 0)

/-- The U-type immediate whose field is `(imm - lo12)[31:12]` (R79, R142). -/
def constHi (imm : Word) : Word := immU (imm - constLo imm)

/-- The `lui`, `addi` pair that leaves `imm` in `rd` (R142). -/
def constPair (rd : RegIdx) (imm : Word) : List Instr := [.lui rd (constHi imm), .addi rd rd (constLo imm)]

/-- The standard expansion of a pseudo-instruction (R79). -/
def expandPseudo : Pseudo → List Instr
  | .nop => [.addi 0 0 0]
  | .mv rd rs => [.addi rd rs 0]
  | .li rd imm => if immFits12 imm then [.addi rd 0 imm] else constPair rd imm
  | .not rd rs => [.xori rd rs (-1)]
  | .neg rd rs => [.sub rd 0 rs]
  | .seqz rd rs => [.sltiu rd rs 1]
  | .snez rd rs => [.sltu rd 0 rs]
  | .j offset => [.jal 0 offset]
  | .jr rs => [.jalr 0 rs 0]
  | .ret => [.jalr 0 1 0]
  | .beqz rs offset => [.beq rs 0 offset]
  | .bnez rs offset => [.bne rs 0 offset]
  | .bgt rs rt offset => [.blt rt rs offset]
  | .ble rs rt offset => [.bge rt rs offset]

/-- A register's assembler name, `x0` to `x31` (R10, R78). -/
def regName (r : RegIdx) : String := "x" ++ Nat.repr r.toNat

/-- A signed decimal operand (R78). -/
def intText (i : Int) : String := if i < 0 then "-" ++ Nat.repr i.natAbs else Nat.repr i.natAbs

/-- `op rd, rs1, rs2` (R78). -/
def asmR (i : Instr) (rd rs1 rs2 : RegIdx) : String :=
  i.mnemonic ++ " " ++ regName rd ++ ", " ++ regName rs1 ++ ", " ++ regName rs2

/-- `op a, b, n` with two registers and a number (R78): I-type ALU, shift-immediates and branches. -/
def asmN (i : Instr) (a b : RegIdx) (n : Int) : String :=
  i.mnemonic ++ " " ++ regName a ++ ", " ++ regName b ++ ", " ++ intText n

/-- `op a, imm(rs1)` (R78): loads, stores and `jalr`. -/
def asmM (i : Instr) (a rs1 : RegIdx) (imm : Word) : String :=
  i.mnemonic ++ " " ++ regName a ++ ", " ++ intText imm.toInt ++ "(" ++ regName rs1 ++ ")"

/-- `op rd, n` (R78): `jal` with its offset, `lui` and `auipc` with the 20-bit field. -/
def asmU (i : Instr) (rd : RegIdx) (n : Int) : String := i.mnemonic ++ " " ++ regName rd ++ ", " ++ intText n

/-- The assembler spelling of an instruction (R78). -/
def asmText (i : Instr) : String :=
  match i with
  | .add rd rs1 rs2 => asmR i rd rs1 rs2
  | .sub rd rs1 rs2 => asmR i rd rs1 rs2
  | .sll rd rs1 rs2 => asmR i rd rs1 rs2
  | .slt rd rs1 rs2 => asmR i rd rs1 rs2
  | .sltu rd rs1 rs2 => asmR i rd rs1 rs2
  | .xor rd rs1 rs2 => asmR i rd rs1 rs2
  | .srl rd rs1 rs2 => asmR i rd rs1 rs2
  | .sra rd rs1 rs2 => asmR i rd rs1 rs2
  | .or rd rs1 rs2 => asmR i rd rs1 rs2
  | .and rd rs1 rs2 => asmR i rd rs1 rs2
  | .addi rd rs1 imm => asmN i rd rs1 imm.toInt
  | .slti rd rs1 imm => asmN i rd rs1 imm.toInt
  | .sltiu rd rs1 imm => asmN i rd rs1 imm.toInt
  | .xori rd rs1 imm => asmN i rd rs1 imm.toInt
  | .ori rd rs1 imm => asmN i rd rs1 imm.toInt
  | .andi rd rs1 imm => asmN i rd rs1 imm.toInt
  | .slli rd rs1 shamt => asmN i rd rs1 shamt.toNat
  | .srli rd rs1 shamt => asmN i rd rs1 shamt.toNat
  | .srai rd rs1 shamt => asmN i rd rs1 shamt.toNat
  | .lb rd rs1 imm => asmM i rd rs1 imm
  | .lh rd rs1 imm => asmM i rd rs1 imm
  | .lw rd rs1 imm => asmM i rd rs1 imm
  | .lbu rd rs1 imm => asmM i rd rs1 imm
  | .lhu rd rs1 imm => asmM i rd rs1 imm
  | .sb rs1 rs2 imm => asmM i rs2 rs1 imm
  | .sh rs1 rs2 imm => asmM i rs2 rs1 imm
  | .sw rs1 rs2 imm => asmM i rs2 rs1 imm
  | .beq rs1 rs2 imm => asmN i rs1 rs2 imm.toInt
  | .bne rs1 rs2 imm => asmN i rs1 rs2 imm.toInt
  | .blt rs1 rs2 imm => asmN i rs1 rs2 imm.toInt
  | .bge rs1 rs2 imm => asmN i rs1 rs2 imm.toInt
  | .bltu rs1 rs2 imm => asmN i rs1 rs2 imm.toInt
  | .bgeu rs1 rs2 imm => asmN i rs1 rs2 imm.toInt
  | .jal rd imm => asmU i rd imm.toInt
  | .jalr rd rs1 imm => asmM i rd rs1 imm
  | .lui rd imm => asmU i rd (extractBits imm 31 12).toNat
  | .auipc rd imm => asmU i rd (extractBits imm 31 12).toNat
  | .ecall _ _ => i.mnemonic
  | .ebreak _ _ => i.mnemonic
  | .mul rd rs1 rs2 => asmR i rd rs1 rs2
  | .mulh rd rs1 rs2 => asmR i rd rs1 rs2
  | .mulhsu rd rs1 rs2 => asmR i rd rs1 rs2
  | .mulhu rd rs1 rs2 => asmR i rd rs1 rs2
  | .div rd rs1 rs2 => asmR i rd rs1 rs2
  | .divu rd rs1 rs2 => asmR i rd rs1 rs2
  | .rem rd rs1 rs2 => asmR i rd rs1 rs2
  | .remu rd rs1 rs2 => asmR i rd rs1 rs2

end Machine

end Sys2Proof
end

