-- ==== Sys2Proof/Machine/Interpret.lean ====
section
/-! DEFINITION. `interpret(word)`, the single entry point of the engine (spec/40_step_and_dispatch.md R81, R90): dispatch of the
word, then the selected handler. It makes no compressed test; that is the fetch's (R83, R90). -/

namespace Sys2Proof.Machine

/-- Step 4 of the dispatch protocol (R60): the handler of a recognised instruction. -/
def handle (i : Instr) (s : State) : Interp :=
  match i with
  | .add rd rs1 rs2 => handleAdd rd rs1 rs2 s
  | .sub rd rs1 rs2 => handleSub rd rs1 rs2 s
  | .sll rd rs1 rs2 => handleSll rd rs1 rs2 s
  | .slt rd rs1 rs2 => handleSlt rd rs1 rs2 s
  | .sltu rd rs1 rs2 => handleSltu rd rs1 rs2 s
  | .xor rd rs1 rs2 => handleXor rd rs1 rs2 s
  | .srl rd rs1 rs2 => handleSrl rd rs1 rs2 s
  | .sra rd rs1 rs2 => handleSra rd rs1 rs2 s
  | .or rd rs1 rs2 => handleOr rd rs1 rs2 s
  | .and rd rs1 rs2 => handleAnd rd rs1 rs2 s
  | .addi rd rs1 imm => handleAddi rd rs1 imm s
  | .slti rd rs1 imm => handleSlti rd rs1 imm s
  | .sltiu rd rs1 imm => handleSltiu rd rs1 imm s
  | .xori rd rs1 imm => handleXori rd rs1 imm s
  | .ori rd rs1 imm => handleOri rd rs1 imm s
  | .andi rd rs1 imm => handleAndi rd rs1 imm s
  | .slli rd rs1 shamt => handleSlli rd rs1 shamt s
  | .srli rd rs1 shamt => handleSrli rd rs1 shamt s
  | .srai rd rs1 shamt => handleSrai rd rs1 shamt s
  | .lb rd rs1 imm => handleLb rd rs1 imm s
  | .lh rd rs1 imm => handleLh rd rs1 imm s
  | .lw rd rs1 imm => handleLw rd rs1 imm s
  | .lbu rd rs1 imm => handleLbu rd rs1 imm s
  | .lhu rd rs1 imm => handleLhu rd rs1 imm s
  | .sb rs1 rs2 imm => handleSb rs1 rs2 imm s
  | .sh rs1 rs2 imm => handleSh rs1 rs2 imm s
  | .sw rs1 rs2 imm => handleSw rs1 rs2 imm s
  | .beq rs1 rs2 imm => handleBeq rs1 rs2 imm s
  | .bne rs1 rs2 imm => handleBne rs1 rs2 imm s
  | .blt rs1 rs2 imm => handleBlt rs1 rs2 imm s
  | .bge rs1 rs2 imm => handleBge rs1 rs2 imm s
  | .bltu rs1 rs2 imm => handleBltu rs1 rs2 imm s
  | .bgeu rs1 rs2 imm => handleBgeu rs1 rs2 imm s
  | .jal rd imm => handleJal rd imm s
  | .jalr rd rs1 imm => handleJalr rd rs1 imm s
  | .lui rd imm => handleLui rd imm s
  | .auipc rd imm => handleAuipc rd imm s
  | .ecall rd rs1 => handleEcall rd rs1 s
  | .ebreak rd rs1 => handleEbreak rd rs1 s
  | .mul rd rs1 rs2 => handleMul rd rs1 rs2 s
  | .mulh rd rs1 rs2 => handleMulh rd rs1 rs2 s
  | .mulhsu rd rs1 rs2 => handleMulhsu rd rs1 rs2 s
  | .mulhu rd rs1 rs2 => handleMulhu rd rs1 rs2 s
  | .div rd rs1 rs2 => handleDiv rd rs1 rs2 s
  | .divu rd rs1 rs2 => handleDivu rd rs1 rs2 s
  | .rem rd rs1 rs2 => handleRem rd rs1 rs2 s
  | .remu rd rs1 rs2 => handleRemu rd rs1 rs2 s

/-- `interpret(word)` (R60, R81, R85): Sequential, Redirected with the pc written, or Raised (R82). -/
def interpret (w : Word) (s : State) : Interp :=
  match decodeWord w with
  | .instr i => handle i s
  | .unknownOpcode x => raise (.unknownOpcode x)
  | .unknownFunct x => raise (.unknownFunct x)

end Sys2Proof.Machine
end

