-- ==== Sys2Proof/Machine/Launch.lean ====
section
/-! DEFINITION. Reset is construction (spec/70_reset_and_hazards.md R176 to R180): the launch state built from the parameters of
`Config`, and the access the host has to registers and pc between steps (spec/10_state.md R23), which the model admits in the
launch state only (D12, log entry 15). -/

namespace Sys2Proof.Machine

/-- `INIT_MEM` laid into a memory (R176 (1)). -/
def layCells (m : Memory) : List Host.Cell → Memory
  | [] => m
  | (a, b) :: rest => layCells (m.setByte a b) rest

/-- The launch state (R176): memory of MEM_SIZE bytes holding INIT_MEM, the image copied in from address 0, x0 = 0 and
x1..x31 = INIT_X, pc = RESET_PC. Refused when MEM_SIZE is over 2^32 or the image is longer than it (D20, log entry 19). -/
def launch (c : Config) : Option State :=
  if c.memSize ≤ 2 ^ 32 ∧ c.image.length ≤ c.memSize then
    some {
      regs := (#v[(0 : Word)] ++ c.initX : Vector Word 32)
      pc := c.resetPc
      mem := (layCells { size := c.memSize, cells := [] } c.initMem).setBytes 0 c.image }
  else none

/-- The host's read of a register: x0 reads 0 (R23, R11). -/
def hostReadReg (s : State) (r : RegIdx) : Word := s.readReg r

/-- The host's write of a register: a write to x0 is discarded (R23, R12). -/
def hostWriteReg (s : State) (r : RegIdx) (v : Word) : State := s.writeReg r v

/-- The host's read of pc (R23). -/
def hostReadPc (s : State) : Word := s.pc

/-- The host's write of pc (R23). -/
def hostWritePc (s : State) (t : Word) : State := s.setPc t

end Sys2Proof.Machine
end

