-- ==== Sys2Proof/Machine/Run.lean ====
section
/-! DEFINITION. A run (spec/40_step_and_dispatch.md R88, R89, R91): steps from a state until the first raised condition, under
fuel, with the state as it was before the raising step and the number of steps completed. -/

namespace Sys2Proof.Machine

/-- How a run under fuel stands. -/
inductive RunEnd where
  /-- The run ended: the condition, the state before the step that raised it, the steps completed (R88). -/
  | raised (c : Fault) (s : State) (steps : Nat)
  /-- The run reached an instruction the model declines; no instruction is. -/
  | declined (r : Refusal) (s : State) (steps : Nat)
  /-- The fuel is spent and no condition was raised (R91). -/
  | running (s : State) (steps : Nat)
deriving DecidableEq, Repr

/-- At most `fuel` steps from `s`, `n` steps having been completed before. -/
def runFrom : Nat → Nat → State → RunEnd
  | 0, n, s => .running s n
  | fuel + 1, n, s =>
    match step s with
    | .next t => runFrom fuel (n + 1) t
    | .fault c => .raised c s n
    | .refused r => .declined r s n

/-- A run of at most `fuel` steps from a launch state. -/
def run (fuel : Nat) (s : State) : RunEnd := runFrom fuel 0 s

end Sys2Proof.Machine
end

