-- ==== Sys2Proof/Safety.lean ====
section
/-! DEFINITION. What counts as a good state and a safe run of CORE, in the terms the claims use. -/

namespace Sys2Proof.Machine

/-- The invariant of every reachable state: the memory is in canonical form and MEM_SIZE is at most 2^32 (R5, R26), and the
stored slot of register 0 holds 0, so that the stored array and the register file agree (R11, R12). -/
def State.inv (s : State) : Bool := s.mem.wf && (s.regs[0] == 0)

/-- `s` raises condition `c`: the step from it ends the run (R88). -/
def Raises (s : State) (c : Fault) : Prop := step s = .fault c

/-- `t` is reached from `s` by exactly `n` completed steps. -/
inductive Reaches : Nat → State → State → Prop where
  | zero (s : State) : Reaches 0 s s
  | succ {n : Nat} {s t u : State} (h : step s = .next t) (r : Reaches n t u) : Reaches (n + 1) s u

/-- A run of `n` steps from `s` raises no condition. -/
def SafeFor (n : Nat) (s : State) : Prop := ∃ t, Reaches n s t

end Sys2Proof.Machine
end

