-- ==== Sys2Proof/Certificates/Slice0/Obligations.lean ====
section
/-! DEFINITION. The statements for the provers, from the numbered rules of spec/. Where a statement rests on a decision of the
spec's own (D<n>) its docstring names it and the log entry. -/

namespace Sys2Proof.Claims

open Sys2Proof.Machine

/-! ### Words the statements use -/

/-- A word with the row's bits under the row's mask decodes to `make` of the word, and no other word decodes to an instruction of
that mnemonic: "a word w is this instruction iff w & mask = match". -/
def Encodes (mnemonic : String) (pattern mask : Word) (make : Word → Instr) : Prop :=
  (∀ w, w &&& mask = pattern → decodeWord w = .instr (make w)) ∧
    (∀ w i, decodeWord w = .instr i → i.mnemonic = mnemonic → w &&& mask = pattern)

/-- The operands of an R-type word, by R48's positions. -/
def ofR (f : RegIdx → RegIdx → RegIdx → Instr) (w : Word) : Instr :=
  f (w.extractLsb' 7 5) (w.extractLsb' 15 5) (w.extractLsb' 20 5)

/-- The operands of an I-type word. -/
def ofI (f : RegIdx → RegIdx → Word → Instr) (w : Word) : Instr :=
  f (w.extractLsb' 7 5) (w.extractLsb' 15 5) (immI w)

/-- The operands of an S-type word: base rs1, data rs2. -/
def ofS (f : RegIdx → RegIdx → Word → Instr) (w : Word) : Instr :=
  f (w.extractLsb' 15 5) (w.extractLsb' 20 5) (immS w)

/-- The operands of a B-type word. -/
def ofB (f : RegIdx → RegIdx → Word → Instr) (w : Word) : Instr :=
  f (w.extractLsb' 15 5) (w.extractLsb' 20 5) (immB w)

/-- The operands of a U-type word. -/
def ofU (f : RegIdx → Word → Instr) (w : Word) : Instr := f (w.extractLsb' 7 5) (immU w)

/-- The operands of a J-type word. -/
def ofJ (f : RegIdx → Word → Instr) (w : Word) : Instr := f (w.extractLsb' 7 5) (immJ w)

/-- The memory is the same: its capacity, and every byte of it. -/
def SameMemory (s t : State) : Prop := t.mem.size = s.mem.size ∧ ∀ a, t.mem.byteAt a = s.mem.byteAt a

/-- Every register is the same. -/
def SameRegisters (s t : State) : Prop := ∀ r, t.readReg r = s.readReg r

/-- pc has moved to the next word, said where the sum does not wrap. -/
def PcAdvanced (s t : State) : Prop := s.pc.toNat + 4 < 2 ^ 32 → t.pc.toNat = s.pc.toNat + 4

/-- `i` completes in `s` with redirected = false; rd holds `v`, unless it is x0, which reads 0; every other register and every
byte of memory is unchanged; pc moves to the next word. -/
def WritesOnly (i : Instr) (s : State) (rd : RegIdx) (v : Word) : Prop :=
  ∃ t, exec i s = .next t ∧ (handle i s).flag = some false ∧
    (∀ r, t.readReg r = if r = 0 then 0 else if r = rd then v else s.readReg r) ∧
    SameMemory s t ∧ PcAdvanced s t

/-- A load of `n` bytes from the wrapped sum of base and displacement: when the span fits, rd receives `v` of the address and
nothing else changes; otherwise MemoryOutOfBounds is raised with the address and the size. -/
def Loads (i : Instr) (s : State) (rd rs1 : RegIdx) (imm : Word) (n : Nat) (v : Nat → Word) : Prop :=
  ((s.readReg rs1 + imm).toNat + n ≤ s.mem.size → WritesOnly i s rd (v (s.readReg rs1 + imm).toNat)) ∧
    (s.mem.size < (s.readReg rs1 + imm).toNat + n →
      exec i s = .fault (.memoryOutOfBounds (s.readReg rs1 + imm) n))

/-- The half-word of two bytes of memory as a number, little-endian. -/
def half (m : Memory) (a : Nat) : Nat := (m.byteAt a).toNat + 256 * (m.byteAt (a + 1)).toNat

/-- The word of four bytes of memory as a number, little-endian. -/
def quad (m : Memory) (a : Nat) : Nat := half m a + 65536 * half m (a + 2)

/-- A store of `bytes`, lowest address first, at the wrapped sum of base and displacement: when the span fits, those bytes are
written, every other byte and every register is unchanged and pc moves to the next word; otherwise MemoryOutOfBounds is raised
with the address and the size. -/
def Stores (i : Instr) (s : State) (rs1 : RegIdx) (imm : Word) (bytes : List Byte) : Prop :=
  ((s.readReg rs1 + imm).toNat + bytes.length ≤ s.mem.size →
    ∃ t, exec i s = .next t ∧ (handle i s).flag = some false ∧ SameRegisters s t ∧ PcAdvanced s t ∧
      t.mem.size = s.mem.size ∧
      (∀ k (h : k < bytes.length), t.mem.byteAt ((s.readReg rs1 + imm).toNat + k) = bytes[k]) ∧
      (∀ a, a < (s.readReg rs1 + imm).toNat ∨ (s.readReg rs1 + imm).toNat + bytes.length ≤ a →
        t.mem.byteAt a = s.mem.byteAt a)) ∧
    (s.mem.size < (s.readReg rs1 + imm).toNat + bytes.length →
      exec i s = .fault (.memoryOutOfBounds (s.readReg rs1 + imm) bytes.length))

/-- A branch on `cond`: taken, pc is the branch's own address plus the offset, modulo 2^32, and redirected is true; not taken,
the handler changes nothing, redirected is false and pc moves to the next word. No register and no byte changes either way. -/
def BranchesOn (i : Instr) (s : State) (imm : Word) (cond : Prop) : Prop :=
  ∃ t, exec i s = .next t ∧ SameRegisters s t ∧ SameMemory s t ∧
    (cond → t.pc.toNat = (s.pc.toNat + imm.toNat) % 2 ^ 32 ∧ handle i s = .redirected t) ∧
    (¬ cond → handle i s = .sequential s ∧ PcAdvanced s t)

/-- `i` completes by a jump to `target` with the link in rd: redirected = true, every other register and every byte of memory
unchanged. -/
def JumpsTo (i : Instr) (s : State) (rd : RegIdx) (target : Word) : Prop :=
  ∃ t, exec i s = .next t ∧ handle i s = .redirected t ∧ t.pc = target ∧
    (∀ r, t.readReg r = if r = 0 then 0 else if r = rd then s.pc + 4 else s.readReg r) ∧ SameMemory s t

/-- The ten opcodes of R61. -/
def opcodes : List (BitVec 7) :=
  [0b0110011, 0b0010011, 0b0000011, 0b1100111, 0b1110011, 0b0100011, 0b1100011, 0b1101111, 0b0110111, 0b0010111]

/-- The complete list of unknown function codes (R74, R75), on the opcode, funct3, funct7 and word[31:20]. -/
def UnknownFunctCase (op : BitVec 7) (f3 : BitVec 3) (f7 : BitVec 7) (imm12 : BitVec 12) : Prop :=
  (op = 0b0110011 ∧ f7 ≠ 0b0000000 ∧ f7 ≠ 0b0100000 ∧ f7 ≠ 0b0000001) ∨
  (op = 0b0110011 ∧ f7 = 0b0100000 ∧ f3 ≠ 0b000 ∧ f3 ≠ 0b101) ∨
  (op = 0b0010011 ∧ f3 = 0b001 ∧ f7 ≠ 0b0000000) ∨
  (op = 0b0010011 ∧ f3 = 0b101 ∧ f7 ≠ 0b0000000 ∧ f7 ≠ 0b0100000) ∨
  (op = 0b0000011 ∧ (f3 = 0b011 ∨ f3 = 0b110 ∨ f3 = 0b111)) ∨
  (op = 0b0100011 ∧ 0b011 ≤ f3) ∨
  (op = 0b1100011 ∧ (f3 = 0b010 ∨ f3 = 0b011)) ∨
  (op = 0b1100111 ∧ f3 ≠ 0b000) ∨
  (op = 0b1110011 ∧ (f3 ≠ 0b000 ∨ (imm12 ≠ 0x000 ∧ imm12 ≠ 0x001)))

/-- The bytes from address `a` up. -/
def bytesFrom (s : State) (a n : Nat) : List Byte := (List.range n).map fun k => s.mem.byteAt (a + k)

/-- The sum of the fields of a word cut at the given low bits, highest first, each shifted back to its place: the word's bits
below `top` are cut at each of `cuts` in turn. -/
def splitSum (w : Word) : Nat → List Nat → Nat
  | _, [] => 0
  | top, lo :: rest =>
    (if h : lo ≤ top - 1 ∧ top - 1 ≤ 31 then (extractBits w (top - 1) lo h).toNat * 2 ^ lo else 0) + splitSum w lo rest

/-- Cuts that cover bits `top - 1` to 0: strictly falling, the last one 0. -/
def Covers : Nat → List Nat → Prop
  | top, [] => top = 0
  | top, lo :: rest => lo < top ∧ Covers lo rest

/-- The register an instruction writes when it completes. -/
def destination : Instr → Option RegIdx
  | .add rd _ _ | .sub rd _ _ | .sll rd _ _ | .slt rd _ _ | .sltu rd _ _ | .xor rd _ _ | .srl rd _ _ | .sra rd _ _
  | .or rd _ _ | .and rd _ _ => some rd
  | .addi rd _ _ | .slti rd _ _ | .sltiu rd _ _ | .xori rd _ _ | .ori rd _ _ | .andi rd _ _ | .slli rd _ _
  | .srli rd _ _ | .srai rd _ _ => some rd
  | .lb rd _ _ | .lh rd _ _ | .lw rd _ _ | .lbu rd _ _ | .lhu rd _ _ => some rd
  | .jal rd _ | .jalr rd _ _ | .lui rd _ | .auipc rd _ => some rd
  | .sb .. | .sh .. | .sw .. | .beq .. | .bne .. | .blt .. | .bge .. | .bltu .. | .bgeu .. => none
  | .ecall .. | .ebreak .. | .mul .. | .mulh .. | .mulhsu .. | .mulhu .. | .div .. | .divu .. | .rem .. | .remu .. => none

/-- The address and number of bytes of an instruction's data access (R116, R123); an instruction with none has size 0. -/
def access (s : State) : Instr → Word × Nat
  | .lb _ rs1 imm | .lbu _ rs1 imm => (s.readReg rs1 + imm, 1)
  | .lh _ rs1 imm | .lhu _ rs1 imm => (s.readReg rs1 + imm, 2)
  | .lw _ rs1 imm => (s.readReg rs1 + imm, 4)
  | .sb rs1 _ imm => (s.readReg rs1 + imm, 1)
  | .sh rs1 _ imm => (s.readReg rs1 + imm, 2)
  | .sw rs1 _ imm => (s.readReg rs1 + imm, 4)
  | _ => (0, 0)

/-- Whether an instruction stores. -/
def isStore : Instr → Bool
  | .sb .. | .sh .. | .sw .. => true
  | _ => false

/-- Address `a` is one of the bytes the instruction stores to. -/
def StoredAt (s : State) (i : Instr) (a : Nat) : Prop :=
  isStore i = true ∧ (access s i).1.toNat ≤ a ∧ a < (access s i).1.toNat + (access s i).2

/-- The condition of a branch (R129 to R134). -/
def taken (s : State) : Instr → Prop
  | .beq rs1 rs2 _ => s.readReg rs1 = s.readReg rs2
  | .bne rs1 rs2 _ => s.readReg rs1 ≠ s.readReg rs2
  | .blt rs1 rs2 _ => (s.readReg rs1).toInt < (s.readReg rs2).toInt
  | .bge rs1 rs2 _ => (s.readReg rs1).toInt ≥ (s.readReg rs2).toInt
  | .bltu rs1 rs2 _ => (s.readReg rs1).toNat < (s.readReg rs2).toNat
  | .bgeu rs1 rs2 _ => (s.readReg rs1).toNat ≥ (s.readReg rs2).toNat
  | _ => False

/-- The pc after the instruction, as the PC mux gives it (R84): the target of a jump or a taken branch, else the next word. -/
def NextPc (s : State) (i : Instr) (p : Word) : Prop :=
  match i with
  | .jal _ imm => p = s.pc + imm
  | .jalr _ rs1 imm => p = s.readReg rs1 + imm
  | .beq _ _ imm | .bne _ _ imm | .blt _ _ imm | .bge _ _ imm | .bltu _ _ imm | .bgeu _ _ imm =>
    (taken s i → p = s.pc + imm) ∧ (¬ taken s i → p = s.pc + 4)
  | _ => p = s.pc + 4

/-- The ten recognised instructions CORE does not execute, with what each names (R144 to R153). -/
def notExecuted (i : Instr) : Option Unimplemented :=
  match i with
  | .ecall .. => some (.ecall (encode i))
  | .ebreak .. => some (.ebreak (encode i))
  | .mul .. | .mulh .. | .mulhsu .. | .mulhu .. | .div .. | .divu .. | .rem .. | .remu .. => some (.m (encode i))
  | _ => none

/-- The redirected flag R81's table gives a recognised instruction: jumps true, branches their condition, the others false; a
load or store may raise instead, and the ten that are not executed always do. -/
def FlagOf (s : State) (i : Instr) (f : Option Bool) : Prop :=
  match i with
  | .jal .. | .jalr .. => f = some true
  | .beq .. | .bne .. | .blt .. | .bge .. | .bltu .. | .bgeu .. =>
    (taken s i → f = some true) ∧ (¬ taken s i → f = some false)
  | .lb .. | .lh .. | .lw .. | .lbu .. | .lhu .. | .sb .. | .sh .. | .sw .. => f ≠ some true
  | .ecall .. | .ebreak .. | .mul .. | .mulh .. | .mulhsu .. | .mulhu .. | .div .. | .divu .. | .rem .. | .remu .. =>
    f = none
  | _ => f = some false

/-- The word of the four bytes at pc. -/
def wordAtPc (s : State) : Word := BitVec.ofNat 32 (quad s.mem s.pc.toNat)

end Sys2Proof.Claims

open Sys2Proof Sys2Proof.Machine Sys2Proof.Claims

/-! ### Registers -/

/-- R11: every read of register 0 gives 0 regardless of prior writes, by an instruction's operand read and by the host's; and
the register file otherwise reads back what was written (R12, R13). -/
def Obligations.RegisterZeroReadsZeroAndOthersReadBack : Prop :=
  ∀ (s : State) (r q : RegIdx) (v : Word),
    (s.writeReg r v).readReg 0 = 0 ∧ hostReadReg (hostWriteReg s r v) 0 = 0 ∧
      s.writeReg 0 v = s ∧
      (q ≠ 0 → (s.writeReg r v).readReg q = if q = r then v else s.readReg q)

/-! ### The decoder -/

/-- R46: extract_bits is the shifted and masked integer, and over any split of bits 31 to 0 into adjacent ranges the fields
shifted back to their places sum to the word. -/
def Obligations.ExtractBitsIsFloorModAndReconstructs : Prop :=
  (∀ (w : Word) (hi lo : Nat) (h : lo ≤ hi ∧ hi ≤ 31),
    (extractBits w hi lo h).toNat = w.toNat / 2 ^ lo % 2 ^ (hi - lo + 1)) ∧
  (∀ (w : Word) (cuts : List Nat), Covers 32 cuts → splitSum w 32 cuts = w.toNat)

/-- R47, R49 to R54: the fields and the immediates of every word, as the format tables lay them out. -/
def Obligations.FormatsGiveTheirFieldsAndImmediates : Prop :=
  ∀ w : Word,
    opcodeOf w = w.extractLsb' 0 7 ∧ rdOf w = w.extractLsb' 7 5 ∧ funct3Of w = w.extractLsb' 12 3 ∧
    rs1Of w = w.extractLsb' 15 5 ∧ rs2Of w = w.extractLsb' 20 5 ∧ funct7Of w = w.extractLsb' 25 7 ∧
    immI w = (w.extractLsb' 20 12).signExtend 32 ∧
    immS w = (w.extractLsb' 25 7 ++ w.extractLsb' 7 5).signExtend 32 ∧
    immB w = (w.extractLsb' 31 1 ++ w.extractLsb' 7 1 ++ w.extractLsb' 25 6 ++ w.extractLsb' 8 4 ++ 0#1).signExtend 32 ∧
    immU w = w.extractLsb' 12 20 ++ 0#12 ∧
    immJ w = (w.extractLsb' 31 1 ++ w.extractLsb' 12 8 ++ w.extractLsb' 20 1 ++ w.extractLsb' 21 10 ++ 0#1).signExtend 32

/-- R58: encoding an offset and decoding it gives the offset back, for every even B-type and J-type offset and every I-type and
S-type immediate in range, whatever stands in the bits outside the immediate's positions. -/
def Obligations.ImmediateEncodersInvertTheDecoders : Prop :=
  (∀ (off : Int) (other : Word), -4096 ≤ off → off ≤ 4094 → off % 2 = 0 → other &&& 0xFE000F80 = 0 →
    (immB (encodeBImm off ||| other)).toInt = off) ∧
  (∀ (off : Int) (other : Word), -1048576 ≤ off → off ≤ 1048574 → off % 2 = 0 → other &&& 0xFFFFF000 = 0 →
    (immJ (encodeJImm off ||| other)).toInt = off) ∧
  (∀ (off : Int) (other : Word), -2048 ≤ off → off ≤ 2047 → other &&& 0xFFF00000 = 0 →
    (immI (encodeIImm off ||| other)).toInt = off) ∧
  (∀ (off : Int) (other : Word), -2048 ≤ off → off ≤ 2047 → other &&& 0xFE000F80 = 0 →
    (immS (encodeSImm off ||| other)).toInt = off)

/-- Every well-formed instruction, with every operand its encoding admits, decodes from its own word. -/
def Obligations.DecodeOfEncodeIsTheInstruction : Prop :=
  ∀ i : Instr, i.wellFormed = true → decodeWord (encode i) = .instr i

/-- Every word that decodes to an instruction decodes to a well-formed one that encodes to that very word: no bit is dropped,
and decoding is injective. -/
def Obligations.EncodeOfDecodeIsTheWord : Prop :=
  ∀ (w : Word) (i : Instr), decodeWord w = .instr i → i.wellFormed = true ∧ encode i = w

/-- The 47 rows of the opcode table select exactly their instruction: a word matches a row iff it decodes to an instruction of
the row's mnemonic; so no word matches two rows. -/
def Obligations.OpcodeTableRowsSelectTheirInstruction : Prop :=
  opcodeTable.length = 47 ∧
  ∀ (w : Word) (row : OpcodeRow), row ∈ opcodeTable →
    (w &&& row.mask = row.pattern ↔ ∃ i, decodeWord w = .instr i ∧ i.mnemonic = row.mnemonic)

/-- R73: interpret raises UnknownOpcode exactly for the words whose opcode is none of the ten, whatever the state. -/
def Obligations.UnknownOpcodeExactlyOutsideTheTenGroups : Prop :=
  ∀ (w : Word) (s : State),
    (∃ x, interpret w s = .raised (.unknownOpcode x)) ↔ w.extractLsb' 0 7 ∉ opcodes

/-- UnknownFunct is raised exactly for the words of R74's and R75's lists. The clauses on JALR (D17) and SYSTEM (D9, D10) are the
spec's own decisions: log entries 12, 13, 14. -/
def Obligations.UnknownFunctExactlyOnTheList : Prop :=
  ∀ (w : Word) (s : State) (x : Word),
    interpret w s = .raised (.unknownFunct x) ↔
      x = w ∧ UnknownFunctCase (w.extractLsb' 0 7) (w.extractLsb' 12 3) (w.extractLsb' 25 7) (w.extractLsb' 20 12)

/-- interpret makes no compressed test: a word handed to it whose low two bits are not 0b11 raises UnknownOpcode (the spec's
decision D6: log entry 10); and UnknownOpcode always carries the word (D19: log entry 18). -/
def Obligations.InterpretHasNoCompressedTest : Prop :=
  ∀ (w : Word) (s : State),
    (w.extractLsb' 0 2 ≠ 0b11 → interpret w s = .raised (.unknownOpcode w)) ∧
    ∀ x, interpret w s = .raised (.unknownOpcode x) → x = w

/-- A few words of spec/95_test_vectors.md, one from each family, decode to the instruction they spell. -/
def Obligations.SampleWordsDecodeAsSpelled : Prop :=
  decodeWord 0x402081B3 = .instr (.sub 3 1 2) ∧ decodeWord 0xFFF0B113 = .instr (.sltiu 2 1 (-1)) ∧
  decodeWord 0x4040D113 = .instr (.srai 2 1 4) ∧ decodeWord 0xFFC32283 = .instr (.lw 5 6 (-4)) ∧
  decodeWord 0x7E208FA3 = .instr (.sb 1 2 2047) ∧ decodeWord 0xFE209CE3 = .instr (.bne 1 2 (-8)) ∧
  decodeWord 0x800000EF = .instr (.jal 1 (-1048576)) ∧ decodeWord 0x7FF000E7 = .instr (.jalr 1 0 2047) ∧
  decodeWord 0x12345297 = .instr (.auipc 5 0x12345000) ∧ decodeWord 0x00100073 = .instr (.ebreak 0 0) ∧
  decodeWord 0x0220F1B3 = .instr (.remu 3 1 2)

/-! ### Memory -/

/-- The three loads assemble the bytes little-endian, at any alignment, and raise MemoryOutOfBounds exactly when the span does
not fit (R31, R32, R33). The bounds sum in unbounded integers is the spec's decision D13: log entry 16. -/
def Obligations.LoadAccessorsAssembleLittleEndian : Prop :=
  ∀ (m : Memory) (addr : Word),
    (addr.toNat + 1 ≤ m.size → m.loadByte addr = .ok (m.byteAt addr.toNat)) ∧
    (m.size < addr.toNat + 1 → m.loadByte addr = .error (.memoryOutOfBounds addr 1)) ∧
    (addr.toNat + 2 ≤ m.size → ∃ v, m.loadHalf addr = .ok v ∧ v.toNat = half m addr.toNat) ∧
    (m.size < addr.toNat + 2 → m.loadHalf addr = .error (.memoryOutOfBounds addr 2)) ∧
    (addr.toNat + 4 ≤ m.size → ∃ v, m.loadWord addr = .ok v ∧ v.toNat = quad m addr.toNat) ∧
    (m.size < addr.toNat + 4 → m.loadWord addr = .error (.memoryOutOfBounds addr 4))

/-- The three stores write the low bytes little-endian, at any alignment, no other byte changes, and they raise
MemoryOutOfBounds exactly when the span does not fit (R34, R35, R36). The bounds sum is the spec's decision D13: log entry
16. -/
def Obligations.StoreAccessorsWriteExactlyTheirBytes : Prop :=
  ∀ (m : Memory) (addr v : Word), m.wf = true →
    (∀ store n, (store, n) ∈ [(m.storeByte addr v, 1), (m.storeHalf addr v, 2), (m.storeWord addr v, 4)] →
      (addr.toNat + n ≤ m.size → ∃ m', store = .ok m' ∧ m'.size = m.size ∧
        (∀ k, k < n → m'.byteAt (addr.toNat + k) = v.extractLsb' (8 * k) 8) ∧
        (∀ a, a < addr.toNat ∨ addr.toNat + n ≤ a → m'.byteAt a = m.byteAt a)) ∧
      (m.size < addr.toNat + n → store = .error (.memoryOutOfBounds addr n)))

/-- A store read back at the same address returns the stored value, or its low half or byte, and accesses of different widths see
the same bytes: the bytes of a stored word, and the word of two stored half-words. -/
def Obligations.StoreThenLoadReturnsTheValue : Prop :=
  ∀ (m m' : Memory) (addr v : Word), m.wf = true →
    (m.storeWord addr v = .ok m' → m'.loadWord addr = .ok v ∧
      m'.loadByte addr = .ok (v.extractLsb' 0 8) ∧ m'.loadByte (addr + 1) = .ok (v.extractLsb' 8 8) ∧
      m'.loadByte (addr + 2) = .ok (v.extractLsb' 16 8) ∧ m'.loadByte (addr + 3) = .ok (v.extractLsb' 24 8)) ∧
    (m.storeHalf addr v = .ok m' → m'.loadHalf addr = .ok (v.extractLsb' 0 16) ∧
      ∀ (m'' : Memory) (u : Word), m'.storeHalf (addr + 2) u = .ok m'' → addr.toNat + 4 ≤ m.size →
        m''.loadWord addr = .ok (u.extractLsb' 0 16 ++ v.extractLsb' 0 16)) ∧
    (m.storeByte addr v = .ok m' → m'.loadByte addr = .ok (v.extractLsb' 0 8))

/-! ### The step -/

/-- When the four bytes at pc lie in memory and decode to an instruction, the step is exec of that instruction, which is its
handler followed by the PC mux; nothing else is added around it. -/
def Obligations.StepRunsTheDecodedInstruction : Prop :=
  ∀ (s : State) (i : Instr), s.pc.toNat + 4 ≤ s.mem.size →
    decodeBytes (bytesFrom s s.pc.toNat 4) = .word (.instr i) [] →
    step s = exec i s ∧ exec i s = pcMux (handle i s)

/-- The step follows the fetch loop (R83, R84, R85): prefetch bounds, compressed test, fetch bounds, then interpret of the word
at pc and the PC mux. The sequence and the order of the conditions are the spec's decisions D6 and D14: log entry 10. -/
def Obligations.StepFollowsTheFetchLoop : Prop :=
  ∀ s : State,
    step s =
      if s.mem.size < s.pc.toNat + 2 then .fault (.memoryOutOfBounds s.pc 2)
      else if half s.mem s.pc.toNat % 4 ≠ 3 then
        .fault (.unimplemented (.compressed (BitVec.ofNat 16 (half s.mem s.pc.toNat))))
      else if s.mem.size < s.pc.toNat + 4 then .fault (.memoryOutOfBounds s.pc 4)
      else pcMux (interpret (wordAtPc s) s)

/-- R81: the value interpret returns for each kind of instruction, and that it returns none exactly when it raises. -/
def Obligations.RedirectedFlagIsFixedByTheInstruction : Prop :=
  ∀ (w : Word) (s : State),
    ((interpret w s).flag = none ↔ ∃ c, interpret w s = .raised c) ∧
    ∀ i, decodeWord w = .instr i → FlagOf s i (interpret w s).flag

/-- What an instruction may change, over all instructions: pc as the PC mux gives it, the one register it names, and the bytes it
stores to; the capacity never. The wrap of pc + 4 is the spec's decision D4 (log entry 8), the jalr target D16 (log entry
17). -/
def Obligations.InstructionChangesOnlyItsDestination : Prop :=
  ∀ (i : Instr) (s t : State), exec i s = .next t →
    NextPc s i t.pc ∧ (∀ r, destination i ≠ some r → t.readReg r = s.readReg r) ∧
      t.mem.size = s.mem.size ∧ (∀ a, ¬ StoredAt s i a → t.mem.byteAt a = s.mem.byteAt a)

/-- Which instruction raises what (R164's handler rows): the ten that are not executed raise Unimplemented, a load or store
MemoryOutOfBounds exactly when its span does not fit, no other ever raises; and no instruction is declined. -/
def Obligations.InstructionsRaiseExactlyTheirConditions : Prop :=
  ∀ (i : Instr) (s : State),
    (∀ c, exec i s = .fault c ↔
      (∃ u, notExecuted i = some u ∧ c = .unimplemented u) ∨
      (s.mem.size < (access s i).1.toNat + (access s i).2 ∧ 0 < (access s i).2 ∧
        c = .memoryOutOfBounds (access s i).1 (access s i).2)) ∧
    (∀ r, exec i s ≠ .refused r)

/-- Every step keeps the invariant: the memory stays canonical and within 2^32 bytes, and the stored slot of x0 stays 0. -/
def Obligations.StepKeepsTheInvariant : Prop :=
  ∀ s t : State, s.inv = true → step s = .next t → t.inv = true

/-- The state after reset meets the invariant. Its values are the model's choice where the spec gives none: log entries 1 to
4. -/
def Obligations.ResetMeetsTheInvariant : Prop :=
  State.reset.inv = true ∧ launch {} = some State.reset

/-- From any launch, every state a run reaches meets the invariant and has the capacity it was constructed with. -/
def Obligations.LaunchedRunsKeepInvariantAndCapacity : Prop :=
  ∀ (c : Config) (s : State) (n : Nat) (t : State), launch c = some s → Reaches n s t →
    t.inv = true ∧ t.mem.size = c.memSize

/-- The launch state (the spec's decisions D1, D2, D3, D20; log entries 1 to 5, 19): refused exactly when the capacity is over
2^32 or the image is longer than it; else pc is RESET_PC, x0 is 0, xi is INIT_X, and the image lies at address 0. A byte of memory
beyond the image that INIT_MEM names holds the named byte, by its last pair for that address (R24, R176; that a later pair wins
and that a pair from MEM_SIZE up names nothing is the model's choice: log entry 28). A byte beyond the image that no pair names,
or whose address is not below MEM_SIZE, reads as the unlisted byte (the model's choice: log entry 4). -/
def Obligations.LaunchBuildsTheLaunchState : Prop :=
  ∀ c : Config,
    (launch c = none ↔ 2 ^ 32 < c.memSize ∨ c.memSize < c.image.length) ∧
    (∀ s, launch c = some s →
      s.pc = c.resetPc ∧ s.mem.size = c.memSize ∧ s.readReg 0 = 0 ∧
      (∀ (k : Nat) (h : k < 31), s.readReg (BitVec.ofNat 5 (k + 1)) = c.initX[k]) ∧
      (∀ (k : Nat) (h : k < c.image.length), s.mem.byteAt k = c.image[k]) ∧
      (∀ (a : Nat) (b : Byte) (before after : List Host.Cell), c.image.length ≤ a → a < c.memSize →
        c.initMem = before ++ (a, b) :: after → (∀ b', (a, b') ∉ after) → s.mem.byteAt a = b) ∧
      (∀ a, c.image.length ≤ a → (∀ b, (a, b) ∉ c.initMem) → s.mem.byteAt a = Config.unlistedByte) ∧
      (∀ a, c.memSize ≤ a → s.mem.byteAt a = Config.unlistedByte))

/-- A run ends at the first raised condition and only there, with the state as it was before that step (the spec's decisions D7
and D8: log entry 11). -/
def Obligations.RunEndsAtTheFirstRaisedCondition : Prop :=
  ∀ (fuel : Nat) (s t : State) (c : Fault) (k : Nat),
    run fuel s = .raised c t k ↔ k < fuel ∧ Reaches k s t ∧ Raises t c

/-- A store into the very next instruction is seen by its fetch: after `sw` of an instruction's word to pc + 4, the next step
runs that instruction (the spec's decisions D5 and D15: log entry 9). -/
def Obligations.StoreIsSeenByTheNextFetch : Prop :=
  ∀ (s : State) (rs1 rs2 : RegIdx) (imm : Word) (j : Instr), s.mem.wf = true →
    s.readReg rs1 + imm = s.pc + 4 → s.pc.toNat + 8 ≤ s.mem.size → s.pc.toNat + 4 < 2 ^ 32 →
    decodeWord (s.readReg rs2) = .instr j →
    ∃ t, exec (.sw rs1 rs2 imm) s = .next t ∧ step t = exec j t

/-! ### The instructions -/

/-- R94, R95: add and sub modulo 2^32. -/
def Obligations.AddSubWrapAndWriteOnlyRd : Prop :=
  Encodes "add" 0x00000033 0xFE00707F (ofR .add) ∧ Encodes "sub" 0x40000033 0xFE00707F (ofR .sub) ∧
  ∀ (rd rs1 rs2 : RegIdx) (s : State),
    WritesOnly (.add rd rs1 rs2) s rd (BitVec.ofInt 32 ((s.readReg rs1).toInt + (s.readReg rs2).toInt)) ∧
    WritesOnly (.sub rd rs1 rs2) s rd (BitVec.ofInt 32 ((s.readReg rs1).toInt - (s.readReg rs2).toInt))

/-- R96, R100, R101: shifts by the low five bits of x[rs2], the arithmetic one rounding towards minus infinity. -/
def Obligations.RegisterShiftsMaskTheAmount : Prop :=
  Encodes "sll" 0x00001033 0xFE00707F (ofR .sll) ∧ Encodes "srl" 0x00005033 0xFE00707F (ofR .srl) ∧
  Encodes "sra" 0x40005033 0xFE00707F (ofR .sra) ∧
  ∀ (rd rs1 rs2 : RegIdx) (s : State),
    WritesOnly (.sll rd rs1 rs2) s rd
      (BitVec.ofNat 32 ((s.readReg rs1).toNat * 2 ^ ((s.readReg rs2).toNat % 32))) ∧
    WritesOnly (.srl rd rs1 rs2) s rd
      (BitVec.ofNat 32 ((s.readReg rs1).toNat / 2 ^ ((s.readReg rs2).toNat % 32))) ∧
    WritesOnly (.sra rd rs1 rs2) s rd
      (BitVec.ofInt 32 ((s.readReg rs1).toInt / 2 ^ ((s.readReg rs2).toNat % 32)))

/-- R97, R98: slt and sltu write 1 or 0, comparing exactly. -/
def Obligations.RegisterComparesWriteOneOrZero : Prop :=
  Encodes "slt" 0x00002033 0xFE00707F (ofR .slt) ∧ Encodes "sltu" 0x00003033 0xFE00707F (ofR .sltu) ∧
  ∀ (rd rs1 rs2 : RegIdx) (s : State),
    WritesOnly (.slt rd rs1 rs2) s rd (if (s.readReg rs1).toInt < (s.readReg rs2).toInt then 1 else 0) ∧
    WritesOnly (.sltu rd rs1 rs2) s rd (if (s.readReg rs1).toNat < (s.readReg rs2).toNat then 1 else 0)

/-- R99, R102, R103: xor, or and and, bit by bit. -/
def Obligations.RegisterLogicIsBitwise : Prop :=
  Encodes "xor" 0x00004033 0xFE00707F (ofR .xor) ∧ Encodes "or" 0x00006033 0xFE00707F (ofR .or) ∧
  Encodes "and" 0x00007033 0xFE00707F (ofR .and) ∧
  ∀ (rd rs1 rs2 : RegIdx) (s : State),
    (∃ v, WritesOnly (.xor rd rs1 rs2) s rd v ∧
      ∀ k, v.getLsbD k = ((s.readReg rs1).getLsbD k ^^ (s.readReg rs2).getLsbD k)) ∧
    (∃ v, WritesOnly (.or rd rs1 rs2) s rd v ∧
      ∀ k, v.getLsbD k = ((s.readReg rs1).getLsbD k || (s.readReg rs2).getLsbD k)) ∧
    (∃ v, WritesOnly (.and rd rs1 rs2) s rd v ∧
      ∀ k, v.getLsbD k = ((s.readReg rs1).getLsbD k && (s.readReg rs2).getLsbD k))

/-- R106, R107: addi modulo 2^32 and slti. -/
def Obligations.AddiSltiWriteOnlyRd : Prop :=
  Encodes "addi" 0x00000013 0x0000707F (ofI .addi) ∧ Encodes "slti" 0x00002013 0x0000707F (ofI .slti) ∧
  ∀ (rd rs1 : RegIdx) (imm : Word) (s : State),
    WritesOnly (.addi rd rs1 imm) s rd (BitVec.ofInt 32 ((s.readReg rs1).toInt + imm.toInt)) ∧
    WritesOnly (.slti rd rs1 imm) s rd (if (s.readReg rs1).toInt < imm.toInt then 1 else 0)

/-- sltiu compares with the sign-extended immediate read as unsigned; that reading is the spec's own inference in R108
("[derived: from 30_encoding.md rule R50 …]"). -/
def Obligations.SltiuComparesWithTheExtendedImmediate : Prop :=
  Encodes "sltiu" 0x00003013 0x0000707F (ofI .sltiu) ∧
  ∀ (rd rs1 : RegIdx) (imm : Word) (s : State),
    WritesOnly (.sltiu rd rs1 imm) s rd (if (s.readReg rs1).toNat < imm.toNat then 1 else 0)

/-- R109, R110, R111: xori, ori and andi, bit by bit, with the immediate sign-extended. -/
def Obligations.ImmediateLogicIsBitwise : Prop :=
  Encodes "xori" 0x00004013 0x0000707F (ofI .xori) ∧ Encodes "ori" 0x00006013 0x0000707F (ofI .ori) ∧
  Encodes "andi" 0x00007013 0x0000707F (ofI .andi) ∧
  ∀ (rd rs1 : RegIdx) (imm : Word) (s : State),
    (∃ v, WritesOnly (.xori rd rs1 imm) s rd v ∧ ∀ k, v.getLsbD k = ((s.readReg rs1).getLsbD k ^^ imm.getLsbD k)) ∧
    (∃ v, WritesOnly (.ori rd rs1 imm) s rd v ∧ ∀ k, v.getLsbD k = ((s.readReg rs1).getLsbD k || imm.getLsbD k)) ∧
    (∃ v, WritesOnly (.andi rd rs1 imm) s rd v ∧ ∀ k, v.getLsbD k = ((s.readReg rs1).getLsbD k && imm.getLsbD k))

/-- R112, R113, R114: the immediate shifts by shamt = word[24:20]. That the upper seven bits must hold an exact value is the
spec's decision D11: log entry 14. -/
def Obligations.ImmediateShiftsUseShamt : Prop :=
  Encodes "slli" 0x00001013 0xFE00707F (ofR .slli) ∧ Encodes "srli" 0x00005013 0xFE00707F (ofR .srli) ∧
  Encodes "srai" 0x40005013 0xFE00707F (ofR .srai) ∧
  ∀ (rd rs1 : RegIdx) (shamt : BitVec 5) (s : State),
    WritesOnly (.slli rd rs1 shamt) s rd (BitVec.ofNat 32 ((s.readReg rs1).toNat * 2 ^ shamt.toNat)) ∧
    WritesOnly (.srli rd rs1 shamt) s rd (BitVec.ofNat 32 ((s.readReg rs1).toNat / 2 ^ shamt.toNat)) ∧
    WritesOnly (.srai rd rs1 shamt) s rd (BitVec.ofInt 32 ((s.readReg rs1).toInt / 2 ^ shamt.toNat))

/-- The byte loads, sign- and zero-extended (R117, R120). The condition's payload is the spec's decision D19: log entry 18. -/
def Obligations.ByteLoadsExtend : Prop :=
  Encodes "lb" 0x00000003 0x0000707F (ofI .lb) ∧ Encodes "lbu" 0x00004003 0x0000707F (ofI .lbu) ∧
  ∀ (rd rs1 : RegIdx) (imm : Word) (s : State),
    Loads (.lb rd rs1 imm) s rd rs1 imm 1 (fun a => BitVec.ofInt 32 (s.mem.byteAt a).toInt) ∧
    Loads (.lbu rd rs1 imm) s rd rs1 imm 1 (fun a => BitVec.ofNat 32 (s.mem.byteAt a).toNat)

/-- The half-word loads, sign- and zero-extended, and the word load, at any alignment (R118, R119, R121). The bounds sum in
unbounded integers and the condition's payload are the spec's decisions D13 and D19: log entries 16 and 18. -/
def Obligations.HalfAndWordLoadsExtend : Prop :=
  Encodes "lh" 0x00001003 0x0000707F (ofI .lh) ∧ Encodes "lhu" 0x00005003 0x0000707F (ofI .lhu) ∧
  Encodes "lw" 0x00002003 0x0000707F (ofI .lw) ∧
  ∀ (rd rs1 : RegIdx) (imm : Word) (s : State),
    Loads (.lh rd rs1 imm) s rd rs1 imm 2 (fun a =>
      BitVec.ofInt 32 (if half s.mem a < 32768 then (half s.mem a : Int) else half s.mem a - 65536)) ∧
    Loads (.lhu rd rs1 imm) s rd rs1 imm 2 (fun a => BitVec.ofNat 32 (half s.mem a)) ∧
    Loads (.lw rd rs1 imm) s rd rs1 imm 4 (fun a => BitVec.ofNat 32 (quad s.mem a))

/-- The stores write the low 1, 2 or 4 bytes of x[rs2], and nothing else (R124, R125, R126). The premise is the memory part of
the invariant of StepKeepsTheInvariant. The bounds sum and the condition's payload are the spec's decisions D13 and D19: log
entries 16 and 18. -/
def Obligations.StoresWriteOnlyTheirBytes : Prop :=
  Encodes "sb" 0x00000023 0x0000707F (ofS .sb) ∧ Encodes "sh" 0x00001023 0x0000707F (ofS .sh) ∧
  Encodes "sw" 0x00002023 0x0000707F (ofS .sw) ∧
  ∀ (rs1 rs2 : RegIdx) (imm : Word) (s : State), s.mem.wf = true →
    Stores (.sb rs1 rs2 imm) s rs1 imm [(s.readReg rs2).extractLsb' 0 8] ∧
    Stores (.sh rs1 rs2 imm) s rs1 imm [(s.readReg rs2).extractLsb' 0 8, (s.readReg rs2).extractLsb' 8 8] ∧
    Stores (.sw rs1 rs2 imm) s rs1 imm [(s.readReg rs2).extractLsb' 0 8, (s.readReg rs2).extractLsb' 8 8,
      (s.readReg rs2).extractLsb' 16 8, (s.readReg rs2).extractLsb' 24 8]

/-- R129, R130: beq and bne. -/
def Obligations.EqualityBranchesRedirect : Prop :=
  Encodes "beq" 0x00000063 0x0000707F (ofB .beq) ∧ Encodes "bne" 0x00001063 0x0000707F (ofB .bne) ∧
  ∀ (rs1 rs2 : RegIdx) (imm : Word) (s : State),
    BranchesOn (.beq rs1 rs2 imm) s imm (s.readReg rs1 = s.readReg rs2) ∧
    BranchesOn (.bne rs1 rs2 imm) s imm (s.readReg rs1 ≠ s.readReg rs2)

/-- R131, R132, R133, R134: the ordered branches, signed and unsigned, comparing exactly. -/
def Obligations.OrderedBranchesRedirect : Prop :=
  Encodes "blt" 0x00004063 0x0000707F (ofB .blt) ∧ Encodes "bge" 0x00005063 0x0000707F (ofB .bge) ∧
  Encodes "bltu" 0x00006063 0x0000707F (ofB .bltu) ∧ Encodes "bgeu" 0x00007063 0x0000707F (ofB .bgeu) ∧
  ∀ (rs1 rs2 : RegIdx) (imm : Word) (s : State),
    BranchesOn (.blt rs1 rs2 imm) s imm ((s.readReg rs1).toInt < (s.readReg rs2).toInt) ∧
    BranchesOn (.bge rs1 rs2 imm) s imm ((s.readReg rs1).toInt ≥ (s.readReg rs2).toInt) ∧
    BranchesOn (.bltu rs1 rs2 imm) s imm ((s.readReg rs1).toNat < (s.readReg rs2).toNat) ∧
    BranchesOn (.bgeu rs1 rs2 imm) s imm ((s.readReg rs1).toNat ≥ (s.readReg rs2).toNat)

/-- jal links pc + 4 and jumps to pc + imm, both from the old pc, modulo 2^32 (R136). That the link wraps is the spec's decision
D4: log entry 8. -/
def Obligations.JalLinksAndJumps : Prop :=
  Encodes "jal" 0x0000006F 0x0000007F (ofJ .jal) ∧
  ∀ (rd : RegIdx) (imm : Word) (s : State), JumpsTo (.jal rd imm) s rd (s.pc + imm)

/-- jalr links pc + 4 and jumps to the old x[rs1] plus imm, also when rd is rs1. That bit 0 of the sum is kept is the spec's
decision D16 (log entry 17), that the link wraps its D4 (log entry 8). -/
def Obligations.JalrJumpsToTheOldBasePlusOffset : Prop :=
  Encodes "jalr" 0x00000067 0x0000707F (ofI .jalr) ∧
  ∀ (rd rs1 : RegIdx) (imm : Word) (s : State), JumpsTo (.jalr rd rs1 imm) s rd (s.readReg rs1 + imm)

/-- R140, R141: lui writes the positioned immediate, auipc adds it to its own address modulo 2^32. -/
def Obligations.UpperImmediatesWriteOnlyRd : Prop :=
  Encodes "lui" 0x00000037 0x0000007F (ofU .lui) ∧ Encodes "auipc" 0x00000017 0x0000007F (ofU .auipc) ∧
  (∀ w : Word, (immU w).toNat = w.toNat / 4096 * 4096) ∧
  ∀ (rd : RegIdx) (imm : Word) (s : State),
    WritesOnly (.lui rd imm) s rd imm ∧
    WritesOnly (.auipc rd imm) s rd (BitVec.ofNat 32 (s.pc.toNat + imm.toNat))

/-- ecall and ebreak raise Unimplemented with their kind and word, on every path, and change nothing (R144, R145). That rd and
rs1 are not examined is the spec's decision D9: log entry 12. -/
def Obligations.EcallEbreakRaiseUnimplemented : Prop :=
  Encodes "ecall" 0x00000073 0xFFF0707F (fun w => .ecall (w.extractLsb' 7 5) (w.extractLsb' 15 5)) ∧
  Encodes "ebreak" 0x00100073 0xFFF0707F (fun w => .ebreak (w.extractLsb' 7 5) (w.extractLsb' 15 5)) ∧
  (∀ (w : Word) (s : State), w &&& 0xFFF0707F = 0x00000073 →
    interpret w s = .raised (.unimplemented (.ecall w))) ∧
  (∀ (w : Word) (s : State), w &&& 0xFFF0707F = 0x00100073 →
    interpret w s = .raised (.unimplemented (.ebreak w))) ∧
  ∀ (rd rs1 : RegIdx) (s : State),
    exec (.ecall rd rs1) s = .fault (.unimplemented (.ecall (encode (.ecall rd rs1)))) ∧
    exec (.ebreak rd rs1) s = .fault (.unimplemented (.ebreak (encode (.ebreak rd rs1))))

/-- The eight M-extension instructions raise Unimplemented(M, word), whatever their operands hold (R146 to R153). That all eight
funct3 values count as M is the spec's decision D18: log entry 14. -/
def Obligations.MExtensionRaisesUnimplemented : Prop :=
  Encodes "mul" 0x02000033 0xFE00707F (ofR .mul) ∧ Encodes "mulh" 0x02001033 0xFE00707F (ofR .mulh) ∧
  Encodes "mulhsu" 0x02002033 0xFE00707F (ofR .mulhsu) ∧ Encodes "mulhu" 0x02003033 0xFE00707F (ofR .mulhu) ∧
  Encodes "div" 0x02004033 0xFE00707F (ofR .div) ∧ Encodes "divu" 0x02005033 0xFE00707F (ofR .divu) ∧
  Encodes "rem" 0x02006033 0xFE00707F (ofR .rem) ∧ Encodes "remu" 0x02007033 0xFE00707F (ofR .remu) ∧
  (∀ (w : Word) (s : State), w &&& 0xFE00007F = 0x02000033 → interpret w s = .raised (.unimplemented (.m w))) ∧
  ∀ (rd rs1 rs2 : RegIdx) (s : State), ∀ f ∈ [Instr.mul, Instr.mulh, Instr.mulhsu, Instr.mulhu, Instr.div,
      Instr.divu, Instr.rem, Instr.remu],
    exec (f rd rs1 rs2) s = .fault (.unimplemented (.m (encode (f rd rs1 rs2))))

/-! ### Compositions -/

/-- The lui, addi pair leaves any constant in rd, unless rd is x0, and changes no other register (the spec's derivation in
R142). -/
def Obligations.LuiAddiPairBuildsAnyConstant : Prop :=
  ∀ (rd : RegIdx) (k : Word) (s : State),
    ∃ hi lo t u, constPair rd k = [.lui rd hi, .addi rd rd lo] ∧
      (Instr.lui rd hi).wellFormed = true ∧ (Instr.addi rd rd lo).wellFormed = true ∧
      exec (.lui rd hi) s = .next t ∧ exec (.addi rd rd lo) t = .next u ∧
      u.readReg rd = (if rd = 0 then 0 else k) ∧ (∀ r, r ≠ rd → u.readReg r = s.readReg r) ∧ SameMemory s u

/-- The register pseudo-instructions do what they are named for: mv copies, not complements, neg negates modulo 2^32, seqz and
snez test for zero, li loads its constant; their expansions are the standard ones the spec gives from general knowledge (G7: log
entry 26). -/
def Obligations.RegisterPseudoInstructionsDoWhatTheyName : Prop :=
  ∀ (rd rs : RegIdx) (imm : Word) (s : State),
    (∃ i, expandPseudo (.mv rd rs) = [i] ∧ WritesOnly i s rd (s.readReg rs)) ∧
    (∃ i, expandPseudo (.not rd rs) = [i] ∧ WritesOnly i s rd (BitVec.ofNat 32 (2 ^ 32 - 1 - (s.readReg rs).toNat))) ∧
    (∃ i, expandPseudo (.neg rd rs) = [i] ∧ WritesOnly i s rd (BitVec.ofInt 32 (-(s.readReg rs).toInt))) ∧
    (∃ i, expandPseudo (.seqz rd rs) = [i] ∧ WritesOnly i s rd (if (s.readReg rs).toNat = 0 then 1 else 0)) ∧
    (∃ i, expandPseudo (.snez rd rs) = [i] ∧ WritesOnly i s rd (if (s.readReg rs).toNat = 0 then 0 else 1)) ∧
    (-2048 ≤ imm.toInt ∧ imm.toInt ≤ 2047 → ∃ i, expandPseudo (.li rd imm) = [i] ∧ WritesOnly i s rd imm) ∧
    (¬ (-2048 ≤ imm.toInt ∧ imm.toInt ≤ 2047) → expandPseudo (.li rd imm) = constPair rd imm)
end

