-- ==== Sys2Proof/Laws/Decode.lean ====
section
/-! SUPPORT. Laws of the decoder and the encoder: the bits of each immediate, the fields of each encoded format, and what a
match under a mask says of the fields. -/

namespace Sys2Proof

/-! ### Extraction -/

theorem extractBits_toNat (w : Word) (hi lo : Nat) (h : lo ≤ hi ∧ hi ≤ 31) :
    (extractBits w hi lo h).toNat = w.toNat / 2 ^ lo % 2 ^ (hi - lo + 1) := by
  simp [extractBits, BitVec.extractLsb, Nat.shiftRight_eq_div_pow]

theorem opcodeOf_and (w m : Word) : opcodeOf (w &&& m) = opcodeOf w &&& opcodeOf m := by
  unfold opcodeOf extractBits; ext i hi; simp

theorem funct3Of_and (w m : Word) : funct3Of (w &&& m) = funct3Of w &&& funct3Of m := by
  unfold funct3Of extractBits; ext i hi; simp

theorem funct7Of_and (w m : Word) : funct7Of (w &&& m) = funct7Of w &&& funct7Of m := by
  unfold funct7Of extractBits; ext i hi; simp

theorem imm12Of_and (w m : Word) : imm12Of (w &&& m) = imm12Of w &&& imm12Of m := by
  unfold imm12Of extractBits; ext i hi; simp

/-- A match under a mask that covers the opcode fixes the opcode. -/
theorem opcodeOf_of_mask {w m p : Word} (h : w &&& m = p) (hm : opcodeOf m = BitVec.allOnes 7) :
    opcodeOf w = opcodeOf p := by
  rw [← h, opcodeOf_and, hm, BitVec.and_allOnes]

/-- A match under a mask that covers funct3 fixes funct3. -/
theorem funct3Of_of_mask {w m p : Word} (h : w &&& m = p) (hm : funct3Of m = BitVec.allOnes 3) :
    funct3Of w = funct3Of p := by
  rw [← h, funct3Of_and, hm, BitVec.and_allOnes]

/-- A match under a mask that covers funct7 fixes funct7. -/
theorem funct7Of_of_mask {w m p : Word} (h : w &&& m = p) (hm : funct7Of m = BitVec.allOnes 7) :
    funct7Of w = funct7Of p := by
  rw [← h, funct7Of_and, hm, BitVec.and_allOnes]

/-- A match under a mask that covers the 12-bit field fixes that field. -/
theorem imm12Of_of_mask {w m p : Word} (h : w &&& m = p) (hm : imm12Of m = BitVec.allOnes 12) :
    imm12Of w = imm12Of p := by
  rw [← h, imm12Of_and, hm, BitVec.and_allOnes]

/-! ### The bits of the immediates -/

theorem sext_bits {n : Nat} (v : BitVec n) (i : Nat) (h : i < 32) :
    (sext v)[i] = if i < n then v.getLsbD i else v.getLsbD (n - 1) := by
  simp only [sext, BitVec.getElem_signExtend, BitVec.msb_eq_getLsbD_last]
  split <;> simp [BitVec.getLsbD_eq_getElem, *]

theorem sextLow_bits {n : Nat} (hn : 0 < n) (v : Word) (i : Nat) (h : i < 32) :
    (sextLow n v)[i] = if i < n then v.getLsbD i else v.getLsbD (n - 1) := by
  rw [sextLow, sext_bits, BitVec.getLsbD_setWidth, BitVec.getLsbD_setWidth]
  split <;> simp_all

theorem immI_bits (w : Word) (i : Nat) (h : i < 32) :
    (immI w)[i] = if i < 11 then w.getLsbD (i + 20) else w.getLsbD 31 := by
  rw [immI, sext_bits]
  unfold extractBits
  interval_cases i <;> simp

theorem immS_bits (w : Word) (i : Nat) (h : i < 32) :
    (immS w)[i] = if i < 5 then w.getLsbD (i + 7) else if i < 11 then w.getLsbD (i + 20) else w.getLsbD 31 := by
  rw [immS, sextLow_bits (by omega)]
  unfold place extractBits
  interval_cases i <;> simp

theorem immB_bits (w : Word) (i : Nat) (h : i < 32) :
    (immB w)[i] = if i = 0 then false else if i < 5 then w.getLsbD (i + 7) else if i < 11 then w.getLsbD (i + 20)
      else if i = 11 then w.getLsbD 7 else w.getLsbD 31 := by
  rw [immB, sextLow_bits (by omega)]
  unfold place extractBits
  interval_cases i <;> simp

theorem immU_bits (w : Word) (i : Nat) (h : i < 32) :
    (immU w)[i] = if i < 12 then false else w.getLsbD i := by
  unfold immU
  interval_cases i <;> simp

theorem immJ_bits (w : Word) (i : Nat) (h : i < 32) :
    (immJ w)[i] = if i = 0 then false else if i < 11 then w.getLsbD (i + 20) else if i = 11 then w.getLsbD 20
      else if i < 20 then w.getLsbD i else w.getLsbD 31 := by
  rw [immJ, sextLow_bits (by omega)]
  unfold place extractBits
  interval_cases i <;> simp

/-- A word whose signed value lies in -2^n .. 2^n - 1 repeats its bit n above it. -/
theorem getLsbD_of_range {v : Word} {n : Nat} (h1 : -(2 ^ n : Int) ≤ v.toInt) (h2 : v.toInt < 2 ^ n)
    {i : Nat} (hi : n ≤ i) (hi' : i < 32) : v.getLsbD i = v.getLsbD n := by
  have key : ∀ b : Bool, (∀ j, n ≤ j → j < 32 → v.getLsbD j = b) → v.getLsbD i = v.getLsbD n :=
    fun b e => by rw [e i hi hi', e n le_rfl (by omega)]
  have ht := BitVec.toInt_eq_toNat_cond v
  have hl := v.isLt
  have hp : ((2 ^ n : Nat) : Int) = 2 ^ n := by push_cast; rfl
  by_cases hm : 2 * v.toNat < 2 ^ 32
  · rw [if_pos hm] at ht
    refine key false fun j h1 _ => ?_
    have : v.toNat < 2 ^ n := by omega
    rw [BitVec.getLsbD, Nat.testBit_lt_two_pow (lt_of_lt_of_le this (Nat.pow_le_pow_right (by omega) h1))]
  · rw [if_neg hm] at ht
    refine key true fun j h1 h3 => ?_
    have : 2 ^ 32 - 1 - v.toNat < 2 ^ n := by omega
    have e1 : (~~~v).getLsbD j = false := by
      rw [BitVec.getLsbD, BitVec.toNat_not, Nat.testBit_lt_two_pow]
      exact lt_of_lt_of_le this (Nat.pow_le_pow_right (by omega) h1)
    simpa [h3] using e1

/-- Bit 0 of an even word is clear. -/
theorem getLsbD_zero_of_even {v : Word} (h : v.toInt % 2 = 0) : v.getLsbD 0 = false := by
  have := BitVec.toInt_eq_toNat_cond v
  rw [BitVec.getLsbD, Nat.testBit_zero]
  split at this <;> simp <;> omega

theorem immFits12_bits {v : Word} (h : immFits12 v = true) {i : Nat} (hi : 11 ≤ i) (hi' : i < 32) :
    v.getLsbD i = v.getLsbD 11 := by
  simp only [immFits12, decide_eq_true_eq] at h
  exact getLsbD_of_range (by omega) (by omega) hi hi'

theorem immFitsB_bits {v : Word} (h : immFitsB v = true) {i : Nat} (hi : 12 ≤ i) (hi' : i < 32) :
    v.getLsbD i = v.getLsbD 12 := by
  simp only [immFitsB, decide_eq_true_eq] at h
  exact getLsbD_of_range (by omega) (by omega) hi hi'

theorem immFitsB_even {v : Word} (h : immFitsB v = true) : v.getLsbD 0 = false := by
  simp only [immFitsB, decide_eq_true_eq] at h
  exact getLsbD_zero_of_even h.2.2

theorem immFitsJ_bits {v : Word} (h : immFitsJ v = true) {i : Nat} (hi : 20 ≤ i) (hi' : i < 32) :
    v.getLsbD i = v.getLsbD 20 := by
  simp only [immFitsJ, decide_eq_true_eq] at h
  exact getLsbD_of_range (by omega) (by omega) hi hi'

theorem immFitsJ_even {v : Word} (h : immFitsJ v = true) : v.getLsbD 0 = false := by
  simp only [immFitsJ, decide_eq_true_eq] at h
  exact getLsbD_zero_of_even h.2.2

theorem immFitsU_low {v : Word} (h : immFitsU v = true) {i : Nat} (hi : i < 12) : v.getLsbD i = false := by
  simp only [immFitsU, decide_eq_true_eq] at h
  have e : (v &&& 0xFFF).getLsbD i = false := by rw [h]; simp
  interval_cases i <;> simpa using e

/-! ### The fields of an encoded word -/

theorem funct7Of_encodeR (funct7 : BitVec 7) (rs2 : RegIdx) (rs1 : RegIdx) (funct3 : BitVec 3) (rd : RegIdx) (opcode : BitVec 7) :
    funct7Of (encodeR funct7 rs2 rs1 funct3 rd opcode) = funct7 := by
  unfold funct7Of encodeR place
  ext i hi
  interval_cases i <;> simp [extractBits]

theorem rs2Of_encodeR (funct7 : BitVec 7) (rs2 : RegIdx) (rs1 : RegIdx) (funct3 : BitVec 3) (rd : RegIdx) (opcode : BitVec 7) :
    rs2Of (encodeR funct7 rs2 rs1 funct3 rd opcode) = rs2 := by
  unfold rs2Of encodeR place
  ext i hi
  interval_cases i <;> simp [extractBits]

theorem rs1Of_encodeR (funct7 : BitVec 7) (rs2 : RegIdx) (rs1 : RegIdx) (funct3 : BitVec 3) (rd : RegIdx) (opcode : BitVec 7) :
    rs1Of (encodeR funct7 rs2 rs1 funct3 rd opcode) = rs1 := by
  unfold rs1Of encodeR place
  ext i hi
  interval_cases i <;> simp [extractBits]

theorem funct3Of_encodeR (funct7 : BitVec 7) (rs2 : RegIdx) (rs1 : RegIdx) (funct3 : BitVec 3) (rd : RegIdx) (opcode : BitVec 7) :
    funct3Of (encodeR funct7 rs2 rs1 funct3 rd opcode) = funct3 := by
  unfold funct3Of encodeR place
  ext i hi
  interval_cases i <;> simp [extractBits]

theorem rdOf_encodeR (funct7 : BitVec 7) (rs2 : RegIdx) (rs1 : RegIdx) (funct3 : BitVec 3) (rd : RegIdx) (opcode : BitVec 7) :
    rdOf (encodeR funct7 rs2 rs1 funct3 rd opcode) = rd := by
  unfold rdOf encodeR place
  ext i hi
  interval_cases i <;> simp [extractBits]

theorem opcodeOf_encodeR (funct7 : BitVec 7) (rs2 : RegIdx) (rs1 : RegIdx) (funct3 : BitVec 3) (rd : RegIdx) (opcode : BitVec 7) :
    opcodeOf (encodeR funct7 rs2 rs1 funct3 rd opcode) = opcode := by
  unfold opcodeOf encodeR place
  ext i hi
  interval_cases i <;> simp [extractBits]

theorem rs1Of_encodeI (imm : Word) (rs1 : RegIdx) (funct3 : BitVec 3) (rd : RegIdx) (opcode : BitVec 7) :
    rs1Of (encodeI imm rs1 funct3 rd opcode) = rs1 := by
  unfold rs1Of encodeI placeImmI place
  ext i hi
  interval_cases i <;> simp [extractBits]

theorem funct3Of_encodeI (imm : Word) (rs1 : RegIdx) (funct3 : BitVec 3) (rd : RegIdx) (opcode : BitVec 7) :
    funct3Of (encodeI imm rs1 funct3 rd opcode) = funct3 := by
  unfold funct3Of encodeI placeImmI place
  ext i hi
  interval_cases i <;> simp [extractBits]

theorem rdOf_encodeI (imm : Word) (rs1 : RegIdx) (funct3 : BitVec 3) (rd : RegIdx) (opcode : BitVec 7) :
    rdOf (encodeI imm rs1 funct3 rd opcode) = rd := by
  unfold rdOf encodeI placeImmI place
  ext i hi
  interval_cases i <;> simp [extractBits]

theorem opcodeOf_encodeI (imm : Word) (rs1 : RegIdx) (funct3 : BitVec 3) (rd : RegIdx) (opcode : BitVec 7) :
    opcodeOf (encodeI imm rs1 funct3 rd opcode) = opcode := by
  unfold opcodeOf encodeI placeImmI place
  ext i hi
  interval_cases i <;> simp [extractBits]

theorem rs2Of_encodeS (imm : Word) (rs2 : RegIdx) (rs1 : RegIdx) (funct3 : BitVec 3) (opcode : BitVec 7) :
    rs2Of (encodeS imm rs2 rs1 funct3 opcode) = rs2 := by
  unfold rs2Of encodeS placeImmS place
  ext i hi
  interval_cases i <;> simp [extractBits]

theorem rs1Of_encodeS (imm : Word) (rs2 : RegIdx) (rs1 : RegIdx) (funct3 : BitVec 3) (opcode : BitVec 7) :
    rs1Of (encodeS imm rs2 rs1 funct3 opcode) = rs1 := by
  unfold rs1Of encodeS placeImmS place
  ext i hi
  interval_cases i <;> simp [extractBits]

theorem funct3Of_encodeS (imm : Word) (rs2 : RegIdx) (rs1 : RegIdx) (funct3 : BitVec 3) (opcode : BitVec 7) :
    funct3Of (encodeS imm rs2 rs1 funct3 opcode) = funct3 := by
  unfold funct3Of encodeS placeImmS place
  ext i hi
  interval_cases i <;> simp [extractBits]

theorem opcodeOf_encodeS (imm : Word) (rs2 : RegIdx) (rs1 : RegIdx) (funct3 : BitVec 3) (opcode : BitVec 7) :
    opcodeOf (encodeS imm rs2 rs1 funct3 opcode) = opcode := by
  unfold opcodeOf encodeS placeImmS place
  ext i hi
  interval_cases i <;> simp [extractBits]

theorem rs2Of_encodeB (imm : Word) (rs2 : RegIdx) (rs1 : RegIdx) (funct3 : BitVec 3) (opcode : BitVec 7) :
    rs2Of (encodeB imm rs2 rs1 funct3 opcode) = rs2 := by
  unfold rs2Of encodeB placeImmB place
  ext i hi
  interval_cases i <;> simp [extractBits]

theorem rs1Of_encodeB (imm : Word) (rs2 : RegIdx) (rs1 : RegIdx) (funct3 : BitVec 3) (opcode : BitVec 7) :
    rs1Of (encodeB imm rs2 rs1 funct3 opcode) = rs1 := by
  unfold rs1Of encodeB placeImmB place
  ext i hi
  interval_cases i <;> simp [extractBits]

theorem funct3Of_encodeB (imm : Word) (rs2 : RegIdx) (rs1 : RegIdx) (funct3 : BitVec 3) (opcode : BitVec 7) :
    funct3Of (encodeB imm rs2 rs1 funct3 opcode) = funct3 := by
  unfold funct3Of encodeB placeImmB place
  ext i hi
  interval_cases i <;> simp [extractBits]

theorem opcodeOf_encodeB (imm : Word) (rs2 : RegIdx) (rs1 : RegIdx) (funct3 : BitVec 3) (opcode : BitVec 7) :
    opcodeOf (encodeB imm rs2 rs1 funct3 opcode) = opcode := by
  unfold opcodeOf encodeB placeImmB place
  ext i hi
  interval_cases i <;> simp [extractBits]

theorem rdOf_encodeU (imm : Word) (rd : RegIdx) (opcode : BitVec 7) :
    rdOf (encodeU imm rd opcode) = rd := by
  unfold rdOf encodeU placeImmU place
  ext i hi
  interval_cases i <;> simp [extractBits]

theorem opcodeOf_encodeU (imm : Word) (rd : RegIdx) (opcode : BitVec 7) :
    opcodeOf (encodeU imm rd opcode) = opcode := by
  unfold opcodeOf encodeU placeImmU place
  ext i hi
  interval_cases i <;> simp [extractBits]

theorem rdOf_encodeJ (imm : Word) (rd : RegIdx) (opcode : BitVec 7) :
    rdOf (encodeJ imm rd opcode) = rd := by
  unfold rdOf encodeJ placeImmJ place
  ext i hi
  interval_cases i <;> simp [extractBits]

theorem opcodeOf_encodeJ (imm : Word) (rd : RegIdx) (opcode : BitVec 7) :
    opcodeOf (encodeJ imm rd opcode) = opcode := by
  unfold opcodeOf encodeJ placeImmJ place
  ext i hi
  interval_cases i <;> simp [extractBits]

/-! ### Immediates survive encoding -/

theorem immI_encodeI {imm : Word} (h : immFits12 imm = true) (rs1 : RegIdx) (funct3 : BitVec 3) (rd : RegIdx)
    (opcode : BitVec 7) : immI (encodeI imm rs1 funct3 rd opcode) = imm := by
  ext i hi
  rw [immI_bits]
  have hb := fun h1 => immFits12_bits h (i := i) h1 hi
  unfold encodeI placeImmI place extractBits
  interval_cases i <;> simp_all

theorem immS_encodeS {imm : Word} (h : immFits12 imm = true) (rs2 rs1 : RegIdx) (funct3 : BitVec 3)
    (opcode : BitVec 7) : immS (encodeS imm rs2 rs1 funct3 opcode) = imm := by
  ext i hi
  rw [immS_bits]
  have hb := fun h1 => immFits12_bits h (i := i) h1 hi
  unfold encodeS placeImmS place extractBits
  interval_cases i <;> simp_all

theorem immB_encodeB {imm : Word} (h : immFitsB imm = true) (rs2 rs1 : RegIdx) (funct3 : BitVec 3)
    (opcode : BitVec 7) : immB (encodeB imm rs2 rs1 funct3 opcode) = imm := by
  ext i hi
  rw [immB_bits]
  have hb := fun h1 => immFitsB_bits h (i := i) h1 hi
  have h0 := immFitsB_even h
  unfold encodeB placeImmB place extractBits
  interval_cases i <;> simp_all

theorem immU_encodeU {imm : Word} (h : immFitsU imm = true) (rd : RegIdx) (opcode : BitVec 7) :
    immU (encodeU imm rd opcode) = imm := by
  ext i hi
  rw [immU_bits]
  have hb := fun h1 => immFitsU_low h (i := i) h1
  unfold encodeU placeImmU place extractBits
  interval_cases i <;> simp_all

theorem immJ_encodeJ {imm : Word} (h : immFitsJ imm = true) (rd : RegIdx) (opcode : BitVec 7) :
    immJ (encodeJ imm rd opcode) = imm := by
  ext i hi
  rw [immJ_bits]
  have hb := fun h1 => immFitsJ_bits h (i := i) h1 hi
  have h0 := immFitsJ_even h
  unfold encodeJ placeImmJ place extractBits
  interval_cases i <;> simp_all

end Sys2Proof
end

