-- ==== Sys2Proof/Laws/Memory.lean ====
section
/-! SUPPORT. Laws of memory: every operation keeps the canonical form, a read after a write gives what was written, a write
leaves every other byte alone, and what each accessor can answer. -/

namespace Sys2Proof.Machine

/-! ### Cells -/

/-- A byte below the first possible address of a canonical list is unlisted. -/
theorem cellAt_of_lt {size lo : Nat} {cs : List Host.Cell} (h : cellsWf size lo cs = true) {a : Nat} (ha : a < lo) :
    cellAt cs a = Config.unlistedByte := by
  induction cs generalizing lo with
  | nil => rfl
  | cons c rest ih =>
    obtain ⟨k, b⟩ := c
    simp only [cellsWf, Bool.and_eq_true, decide_eq_true_eq] at h
    have : k ≠ a := by omega
    simp only [cellAt, if_neg this]
    exact ih h.2 (by omega)

/-- A byte from the capacity up is unlisted. -/
theorem cellAt_of_size_le {size lo : Nat} {cs : List Host.Cell} (h : cellsWf size lo cs = true) {a : Nat} (ha : size ≤ a) :
    cellAt cs a = Config.unlistedByte := by
  induction cs generalizing lo with
  | nil => rfl
  | cons c rest ih =>
    obtain ⟨k, b⟩ := c
    simp only [cellsWf, Bool.and_eq_true, decide_eq_true_eq] at h
    rw [cellAt, if_neg (by omega), ih h.2]

theorem cellAt_setCell_self {size lo : Nat} {cs : List Host.Cell} (h : cellsWf size lo cs = true) (a : Nat) (b : Byte) :
    cellAt (setCell cs a b) a = b := by
  induction cs generalizing lo with
  | nil => by_cases hb : b = Config.unlistedByte <;> simp [setCell, cellAt, hb]
  | cons c rest ih =>
    obtain ⟨k, x⟩ := c
    simp only [cellsWf, Bool.and_eq_true, decide_eq_true_eq] at h
    unfold setCell
    split
    · split
      · next hb =>
        rw [hb, cellAt, if_neg (by omega)]
        exact cellAt_of_lt h.2 (by omega)
      · simp [cellAt]
    · split
      · next hk =>
        subst hk
        split
        · next hb => rw [hb]; exact cellAt_of_lt h.2 (by omega)
        · simp [cellAt]
      · rw [cellAt, if_neg (by omega)]
        exact ih h.2

theorem cellAt_setCell_of_ne (cs : List Host.Cell) {a a' : Nat} (hne : a' ≠ a) (b : Byte) :
    cellAt (setCell cs a b) a' = cellAt cs a' := by
  induction cs with
  | nil => by_cases hb : b = Config.unlistedByte <;> simp [setCell, cellAt, hb, hne.symm]
  | cons c rest ih =>
    obtain ⟨k, x⟩ := c
    unfold setCell
    split
    · split
      · rfl
      · simp [cellAt, hne.symm]
    · split
      · next hk => subst hk; split <;> simp [cellAt, hne.symm]
      · simp only [cellAt, ih]

/-- Writing a byte keeps the canonical form. -/
theorem cellsWf_setCell {size lo : Nat} {cs : List Host.Cell} (h : cellsWf size lo cs = true) {a : Nat} (hlo : lo ≤ a)
    (ha : a < size) (b : Byte) : cellsWf size lo (setCell cs a b) = true := by
  induction cs generalizing lo with
  | nil => by_cases hb : b = Config.unlistedByte <;> simp [setCell, cellsWf, hb, hlo, ha]
  | cons c rest ih =>
    obtain ⟨k, x⟩ := c
    simp only [cellsWf, Bool.and_eq_true, decide_eq_true_eq, bne_iff_ne] at h
    obtain ⟨⟨⟨h1, h2⟩, h3⟩, h4⟩ := h
    have weaken : ∀ {l l' : Nat} {ds : List Host.Cell}, l' ≤ l → cellsWf size l ds = true → cellsWf size l' ds = true := by
      intro l l' ds hl hw
      cases ds with
      | nil => rfl
      | cons d ds =>
        simp only [cellsWf, Bool.and_eq_true, decide_eq_true_eq] at hw ⊢
        exact ⟨⟨⟨by omega, hw.1.1.2⟩, hw.1.2⟩, hw.2⟩
    unfold setCell
    split
    · split
      · simp [cellsWf, h1, h2, h3, h4]
      · next hk hb =>
        simp only [cellsWf, Bool.and_eq_true, decide_eq_true_eq, bne_iff_ne]
        exact ⟨⟨⟨hlo, ha⟩, hb⟩, ⟨⟨by omega, h2⟩, h3⟩, h4⟩
    · split
      · next hk =>
        subst hk
        split
        · exact weaken (by omega) h4
        · next hb => simp [cellsWf, hlo, ha, hb, h4]
      · simp only [cellsWf, Bool.and_eq_true, decide_eq_true_eq, bne_iff_ne]
        exact ⟨⟨⟨h1, h2⟩, h3⟩, ih h4 (by omega)⟩

/-! ### Bytes -/

@[simp] theorem Memory.setByte_size (m : Memory) (a : Nat) (b : Byte) : (m.setByte a b).size = m.size := by
  unfold Memory.setByte; split <;> rfl

@[simp] theorem Memory.setBytes_size (m : Memory) (a : Nat) (bs : List Byte) : (m.setBytes a bs).size = m.size := by
  induction bs generalizing m a with
  | nil => rfl
  | cons b rest ih => rw [Memory.setBytes, ih, Memory.setByte_size]

/-- Every byte write keeps a memory well-formed. -/
theorem Memory.wf_setByte {m : Memory} (h : m.wf = true) (a : Nat) (b : Byte) : (m.setByte a b).wf = true := by
  unfold Memory.setByte
  split
  · next ha =>
    simp only [Memory.wf, Bool.and_eq_true] at h ⊢
    exact ⟨h.1, cellsWf_setCell h.2 (Nat.zero_le _) ha b⟩
  · exact h

/-- Every run of byte writes keeps a memory well-formed. -/
theorem Memory.wf_setBytes {m : Memory} (h : m.wf = true) (a : Nat) (bs : List Byte) : (m.setBytes a bs).wf = true := by
  induction bs generalizing m a with
  | nil => exact h
  | cons b rest ih => exact ih (Memory.wf_setByte h a b) _

/-- An address from MEM_SIZE up names no byte, so a well-formed memory lists none there. -/
theorem Memory.byteAt_of_size_le {m : Memory} (h : m.wf = true) {a : Nat} (ha : m.size ≤ a) :
    m.byteAt a = Config.unlistedByte := by
  simp only [Memory.wf, Bool.and_eq_true] at h
  exact cellAt_of_size_le h.2 ha

theorem Memory.byteAt_setByte_self {m : Memory} (h : m.wf = true) {a : Nat} (ha : a < m.size) (b : Byte) :
    (m.setByte a b).byteAt a = b := by
  simp only [Memory.wf, Bool.and_eq_true] at h
  simp only [Memory.setByte, if_pos ha, Memory.byteAt]
  exact cellAt_setCell_self h.2 a b

theorem Memory.byteAt_setByte_of_ne (m : Memory) {a a' : Nat} (hne : a' ≠ a) (b : Byte) :
    (m.setByte a b).byteAt a' = m.byteAt a' := by
  unfold Memory.setByte
  split
  · exact cellAt_setCell_of_ne _ hne b
  · rfl

/-- Bytes outside the span of a run of writes are unchanged; no well-formedness is needed. -/
theorem Memory.byteAt_setBytes_of_outside (m : Memory) (a : Nat) (bs : List Byte) {a' : Nat}
    (h : a' < a ∨ a + bs.length ≤ a') : (m.setBytes a bs).byteAt a' = m.byteAt a' := by
  induction bs generalizing m a with
  | nil => rfl
  | cons b rest ih =>
    simp only [List.length_cons] at h
    rw [Memory.setBytes, ih _ _ (by omega), Memory.byteAt_setByte_of_ne _ (by omega)]

/-- Bytes inside the span of a run of writes hold what was written. -/
theorem Memory.byteAt_setBytes_inside {m : Memory} (h : m.wf = true) (a : Nat) (bs : List Byte)
    (hs : a + bs.length ≤ m.size) {i : Nat} (hi : i < bs.length) : (m.setBytes a bs).byteAt (a + i) = bs[i] := by
  induction bs generalizing m a i with
  | nil => simp at hi
  | cons b rest ih =>
    simp only [List.length_cons] at hs hi
    rw [Memory.setBytes]
    cases i with
    | zero =>
      rw [Memory.byteAt_setBytes_of_outside _ _ _ (by omega), Nat.add_zero, Memory.byteAt_setByte_self h (by omega)]
      rfl
    | succ j =>
      rw [show a + (j + 1) = a + 1 + j by omega, ih (Memory.wf_setByte h a b) (a + 1) (by simp; omega) (by omega)]
      rfl

/-! ### The accessors -/

@[simp] theorem Memory.inBounds_eq (m : Memory) (addr : Word) (n : Nat) :
    m.inBounds addr n = decide (addr.toNat + n ≤ m.size) := rfl

/-- A checked access answers its value exactly when the span fits (R30). -/
theorem Memory.checked_ok {α : Type} {m : Memory} {addr : Word} {n : Nat} (h : addr.toNat + n ≤ m.size) (v : α) :
    m.checked addr n v = .ok v := by
  simp [Memory.checked, h]

/-- A checked access whose span does not fit raises MemoryOutOfBounds with its address and size (R30, R162). -/
theorem Memory.checked_error {α : Type} {m : Memory} {addr : Word} {n : Nat} (h : m.size < addr.toNat + n) (v : α) :
    m.checked addr n v = .error (.memoryOutOfBounds addr n) := by
  simp [Memory.checked, h]

/-- All a checked access can answer. -/
theorem Memory.checked_cases {α : Type} (m : Memory) (addr : Word) (n : Nat) (v : α) :
    (addr.toNat + n ≤ m.size ∧ m.checked addr n v = .ok v) ∨
      (m.size < addr.toNat + n ∧ m.checked addr n v = .error (.memoryOutOfBounds addr n)) := by
  rcases Nat.lt_or_ge m.size (addr.toNat + n) with h | h
  · exact .inr ⟨h, Memory.checked_error h v⟩
  · exact .inl ⟨h, Memory.checked_ok h v⟩

/-- What a checked access that answers has answered. -/
theorem Memory.checked_eq_ok {α : Type} {m : Memory} {addr : Word} {n : Nat} {v x : α} (h : m.checked addr n v = .ok x) :
    addr.toNat + n ≤ m.size ∧ x = v := by
  rcases Memory.checked_cases m addr n v with ⟨h1, h2⟩ | ⟨_, h2⟩
  · rw [h2] at h; exact ⟨h1, (Except.ok.inj h).symm⟩
  · rw [h2] at h; cases h

/-- The byte, half-word and word stores keep a memory well-formed. -/
theorem Memory.wf_of_store {m m' : Memory} {addr v : Word} (h : m.wf = true)
    (hs : m.storeByte addr v = .ok m' ∨ m.storeHalf addr v = .ok m' ∨ m.storeWord addr v = .ok m') : m'.wf = true := by
  rcases hs with hs | hs | hs <;> (rw [(Memory.checked_eq_ok hs).2]; exact Memory.wf_setBytes h _ _)

theorem halfOfBytes_toNat (b0 b1 : Byte) : (halfOfBytes b0 b1).toNat = b0.toNat + 2 ^ 8 * b1.toNat := by
  have h0 := b0.isLt
  have h1 := b1.isLt
  have e : b0.setWidth 16 ||| b1.setWidth 16 <<< 8 = b0.setWidth 16 + b1.setWidth 16 <<< 8 := by
    rw [BitVec.add_eq_or_of_and_eq_zero]
    ext i hi; interval_cases i <;> simp
  rw [halfOfBytes, e]
  simp [BitVec.toNat_add, BitVec.toNat_shiftLeft, Nat.shiftLeft_eq]
  omega

theorem wordOfBytes_toNat (b0 b1 b2 b3 : Byte) :
    (wordOfBytes b0 b1 b2 b3).toNat = b0.toNat + 2 ^ 8 * b1.toNat + 2 ^ 16 * b2.toNat + 2 ^ 24 * b3.toNat := by
  have h0 := b0.isLt
  have h1 := b1.isLt
  have h2 := b2.isLt
  have h3 := b3.isLt
  have e : wordOfBytes b0 b1 b2 b3 = zext b0 + zext b1 <<< 8 + zext b2 <<< 16 + zext b3 <<< 24 := by
    have a1 : zext b0 + zext b1 <<< 8 = zext b0 ||| zext b1 <<< 8 := by
      apply BitVec.add_eq_or_of_and_eq_zero
      unfold zext; ext i hi; interval_cases i <;> simp
    have a2 : (zext b0 ||| zext b1 <<< 8) + zext b2 <<< 16 = zext b0 ||| zext b1 <<< 8 ||| zext b2 <<< 16 := by
      apply BitVec.add_eq_or_of_and_eq_zero
      unfold zext; ext i hi; interval_cases i <;> simp
    have a3 : (zext b0 ||| zext b1 <<< 8 ||| zext b2 <<< 16) + zext b3 <<< 24 = wordOfBytes b0 b1 b2 b3 := by
      apply BitVec.add_eq_or_of_and_eq_zero
      unfold zext; ext i hi; interval_cases i <;> simp
    rw [a1, a2, a3]
  rw [e]
  simp [zext, BitVec.toNat_add, BitVec.toNat_shiftLeft, Nat.shiftLeft_eq]
  omega

/-- A word put together from its own four bytes. -/
theorem wordOfBytes_extract (v : Word) :
    wordOfBytes (extractBits v 7 0) (extractBits v 15 8) (extractBits v 23 16) (extractBits v 31 24) = v := by
  unfold wordOfBytes zext extractBits
  ext i hi; interval_cases i <;> simp

/-- A half-word put together from the low two bytes of a word. -/
theorem halfOfBytes_extract (v : Word) :
    halfOfBytes (extractBits v 7 0) (extractBits v 15 8) = v.extractLsb' 0 16 := by
  unfold halfOfBytes extractBits
  ext i hi; interval_cases i <;> simp

end Sys2Proof.Machine
end

