-- ==== Sys2Proof/Laws/Launch.lean ====
section
/-! SUPPORT. Laws of the memory operations that build a launch state, of the placing of a word, and of the memory after reset. -/

namespace Sys2Proof.Machine

/-- Laying cells into a memory keeps it well-formed. -/
theorem wf_layCells {m : Memory} (h : m.wf = true) (cs : List Host.Cell) : (layCells m cs).wf = true := by
  induction cs generalizing m with
  | nil => exact h
  | cons c rest ih => exact ih (Memory.wf_setByte h c.1 c.2)

@[simp] theorem layCells_size (m : Memory) (cs : List Host.Cell) : (layCells m cs).size = m.size := by
  induction cs generalizing m with
  | nil => rfl
  | cons c rest ih => rw [layCells, ih, Memory.setByte_size]

/-- Laying cells changes only the bytes they name. -/
theorem byteAt_layCells_of_unnamed (m : Memory) (cs : List Host.Cell) {a : Nat} (h : ∀ b, (a, b) ∉ cs) :
    (layCells m cs).byteAt a = m.byteAt a := by
  induction cs generalizing m with
  | nil => rfl
  | cons c rest ih =>
    rw [layCells, ih _ fun b hb => h b (List.mem_cons_of_mem _ hb), Memory.byteAt_setByte_of_ne]
    rintro rfl
    exact h c.2 List.mem_cons_self

/-- A byte that the laid cells name holds what their last pair for it says. -/
theorem byteAt_layCells_of_last {m : Memory} (h : m.wf = true) (before after : List Host.Cell) {a : Nat} {b : Byte}
    (ha : a < m.size) (hlast : ∀ b', (a, b') ∉ after) : (layCells m (before ++ (a, b) :: after)).byteAt a = b := by
  induction before generalizing m with
  | nil => exact (byteAt_layCells_of_unnamed _ after hlast).trans (Memory.byteAt_setByte_self h ha b)
  | cons c rest ih => exact ih (Memory.wf_setByte h c.1 c.2) (by rwa [Memory.setByte_size])

/-- Placing a word at pc keeps a memory well-formed. -/
theorem wf_placeWord {s : State} (h : s.mem.wf = true) (w : Word) : (placeWord s w).mem.wf = true :=
  Memory.wf_setBytes h _ _

/-- The memory after reset is well-formed. -/
theorem wf_reset : State.reset.mem.wf = true := by decide

end Sys2Proof.Machine
end

