-- ==== Sys2Proof/Laws/State.lean ====
section
/-! SUPPORT. One lemma per field of State per update, and the read-after-write laws of the register file. -/

namespace Sys2Proof.Machine

@[simp] theorem State.setPc_pc (s : State) (t : Word) : (s.setPc t).pc = t := rfl
@[simp] theorem State.setPc_regs (s : State) (t : Word) : (s.setPc t).regs = s.regs := rfl
@[simp] theorem State.setPc_mem (s : State) (t : Word) : (s.setPc t).mem = s.mem := rfl
@[simp] theorem State.setMem_pc (s : State) (m : Memory) : (s.setMem m).pc = s.pc := rfl
@[simp] theorem State.setMem_regs (s : State) (m : Memory) : (s.setMem m).regs = s.regs := rfl
@[simp] theorem State.setMem_mem (s : State) (m : Memory) : (s.setMem m).mem = m := rfl

@[simp] theorem State.writeReg_pc (s : State) (r : RegIdx) (v : Word) : (s.writeReg r v).pc = s.pc := by
  unfold State.writeReg; split <;> rfl

@[simp] theorem State.writeReg_mem (s : State) (r : RegIdx) (v : Word) : (s.writeReg r v).mem = s.mem := by
  unfold State.writeReg; split <;> rfl

@[simp] theorem State.writeReg_zero (s : State) (v : Word) : s.writeReg 0#5 v = s := rfl

@[simp] theorem State.readReg_zero (s : State) : s.readReg 0#5 = 0#32 := rfl

@[simp] theorem State.readReg_setPc (s : State) (t : Word) (r : RegIdx) : (s.setPc t).readReg r = s.readReg r := rfl

@[simp] theorem State.readReg_setMem (s : State) (m : Memory) (r : RegIdx) :
    (s.setMem m).readReg r = s.readReg r := rfl

/-- Reading after a write (R11, R12, R13): register 0 reads 0, the written register its value, any other what it held. -/
theorem State.readReg_writeReg (s : State) (r : RegIdx) (v : Word) (q : RegIdx) :
    (s.writeReg r v).readReg q = if q = 0#5 then 0#32 else if q = r then v else s.readReg q := by
  by_cases hq : q = 0#5
  · subst hq; rfl
  rw [if_neg hq]
  by_cases hr : r = 0#5
  · subst hr; simp [hq]
  by_cases h : q = r
  · subst h; simp [State.readReg, State.writeReg, hq]
  · have : r.toNat ≠ q.toNat := fun e => h (BitVec.eq_of_toNat_eq e.symm)
    simp [State.readReg, State.writeReg, hr, h, this]

theorem State.readReg_writeReg_self (s : State) {r : RegIdx} (h : r ≠ 0#5) (v : Word) :
    (s.writeReg r v).readReg r = v := by
  rw [State.readReg_writeReg, if_neg h, if_pos rfl]

theorem State.readReg_writeReg_of_ne (s : State) {r q : RegIdx} (h : q ≠ r) (v : Word) :
    (s.writeReg r v).readReg q = s.readReg q := by
  rw [State.readReg_writeReg, if_neg h]
  split
  · subst q; rfl
  · rfl

/-- The stored slot of register 0 is never written. -/
@[simp] theorem State.writeReg_slot_zero (s : State) (r : RegIdx) (v : Word) :
    (s.writeReg r v).regs[0] = s.regs[0] := by
  unfold State.writeReg
  split
  · rfl
  · next h =>
    have : r.toNat ≠ 0 := fun e => h (BitVec.eq_of_toNat_eq e)
    simp [this]

end Sys2Proof.Machine
end

