-- ==== Sys2Proof/Laws/Ops.lean ====
section
/-! SUPPORT. One lemma for each shared operation, saying once everything it can do. -/

namespace Sys2Proof.Machine

/-- All the PC mux can answer (R84). -/
theorem pcMux_next {o : Interp} {t : State} (h : pcMux o = .next t) :
    (∃ s, o = .sequential s ∧ t = s.setPc (s.pc + 4)) ∨ o = .redirected t := by
  cases o with
  | sequential s => exact .inl ⟨s, rfl, (Host.Outcome.next.inj h).symm⟩
  | redirected s => exact .inr (by rw [Host.Outcome.next.inj h])
  | raised c => cases h

/-- The PC mux passes on a condition and invents none. -/
theorem pcMux_fault {o : Interp} {c : Fault} (h : pcMux o = .fault c) : o = .raised c := by
  cases o with
  | sequential s => cases h
  | redirected s => cases h
  | raised d => rw [Host.Outcome.fault.inj h]

/-- The PC mux never declines. -/
theorem pcMux_ne_refused (o : Interp) (r : Refusal) : pcMux o ≠ .refused r := by
  cases o <;> simp [pcMux]

/-- A branch writes at most pc, and writes it exactly when it redirects (R128). -/
theorem branch_cases (cond : Bool) (imm : Word) (s : State) :
    (cond = true ∧ branch cond imm s = .redirected (s.setPc (s.pc + imm))) ∨
      (cond = false ∧ branch cond imm s = .sequential s) := by
  cases cond
  · exact .inr ⟨rfl, rfl⟩
  · exact .inl ⟨rfl, rfl⟩

/-- A load whose access answers writes rd back, and nothing else. -/
theorem load_of_ok {n : Nat} {access : Memory → Word → Except Fault (BitVec n)} {s : State} {rs1 : RegIdx} {imm : Word}
    {v : BitVec n} (h : access s.mem (effAddr rs1 imm s) = .ok v) (extend : BitVec n → Word) (rd : RegIdx) :
    load access extend rd rs1 imm s = .sequential (s.writeReg rd (extend v)) := by
  simp only [load, h, writeBack]

/-- A load whose access raises raises the same condition and changes nothing. -/
theorem load_of_error {n : Nat} {access : Memory → Word → Except Fault (BitVec n)} {s : State} {rs1 : RegIdx} {imm : Word}
    {c : Fault} (h : access s.mem (effAddr rs1 imm s) = .error c) (extend : BitVec n → Word) (rd : RegIdx) :
    load access extend rd rs1 imm s = .raised c := by
  simp only [load, h, raise]

/-- All a load can do: write rd back, or raise what its access raises. -/
theorem load_cases {n : Nat} (access : Memory → Word → Except Fault (BitVec n)) (extend : BitVec n → Word)
    (rd rs1 : RegIdx) (imm : Word) (s : State) :
    (∃ v, access s.mem (effAddr rs1 imm s) = .ok v ∧
        load access extend rd rs1 imm s = .sequential (s.writeReg rd (extend v))) ∨
      (∃ c, access s.mem (effAddr rs1 imm s) = .error c ∧ load access extend rd rs1 imm s = .raised c) := by
  cases h : access s.mem (effAddr rs1 imm s) with
  | ok v => exact .inl ⟨v, rfl, load_of_ok h extend rd⟩
  | error c => exact .inr ⟨c, rfl, load_of_error h extend rd⟩

/-- A store whose access answers replaces the memory, and nothing else. -/
theorem store_of_ok {access : Memory → Word → Word → Except Fault Memory} {s : State} {rs1 rs2 : RegIdx} {imm : Word}
    {m : Memory} (h : access s.mem (effAddr rs1 imm s) (s.readReg rs2) = .ok m) :
    store access rs1 rs2 imm s = .sequential (s.setMem m) := by
  simp only [store, h]

/-- A store whose access raises raises the same condition and changes nothing. -/
theorem store_of_error {access : Memory → Word → Word → Except Fault Memory} {s : State} {rs1 rs2 : RegIdx} {imm : Word}
    {c : Fault} (h : access s.mem (effAddr rs1 imm s) (s.readReg rs2) = .error c) :
    store access rs1 rs2 imm s = .raised c := by
  simp only [store, h, raise]

/-- All a store can do: replace the memory, or raise what its access raises. -/
theorem store_cases (access : Memory → Word → Word → Except Fault Memory) (rs1 rs2 : RegIdx) (imm : Word) (s : State) :
    (∃ m, access s.mem (effAddr rs1 imm s) (s.readReg rs2) = .ok m ∧
        store access rs1 rs2 imm s = .sequential (s.setMem m)) ∨
      (∃ c, access s.mem (effAddr rs1 imm s) (s.readReg rs2) = .error c ∧ store access rs1 rs2 imm s = .raised c) := by
  cases h : access s.mem (effAddr rs1 imm s) (s.readReg rs2) with
  | ok m => exact .inl ⟨m, rfl, store_of_ok h⟩
  | error c => exact .inr ⟨c, rfl, store_of_error h⟩

/-- A fetch that answers has read a word that fits and does not look compressed. -/
theorem fetch_eq_ok {s : State} {w : Word} (h : fetch s = .ok w) :
    s.pc.toNat + 4 ≤ s.mem.size ∧
      w = wordOfBytes (s.mem.byteAt s.pc.toNat) (s.mem.byteAt (s.pc.toNat + 1)) (s.mem.byteAt (s.pc.toNat + 2))
        (s.mem.byteAt (s.pc.toNat + 3)) ∧
      isCompressed (halfOfBytes (s.mem.byteAt s.pc.toNat) (s.mem.byteAt (s.pc.toNat + 1))) = false := by
  unfold fetch at h
  split at h
  · cases h
  · next v hv =>
    split at h
    · cases h
    · next hc =>
      obtain ⟨h1, h2⟩ := Memory.checked_eq_ok h
      rw [(Memory.checked_eq_ok hv).2] at hc
      exact ⟨h1, h2, by simpa using hc⟩

/-- A fetch whose word fits and does not look compressed answers it. -/
theorem fetch_of_fits {s : State} (h : s.pc.toNat + 4 ≤ s.mem.size)
    (hc : isCompressed (halfOfBytes (s.mem.byteAt s.pc.toNat) (s.mem.byteAt (s.pc.toNat + 1))) = false) :
    fetch s = .ok (wordOfBytes (s.mem.byteAt s.pc.toNat) (s.mem.byteAt (s.pc.toNat + 1)) (s.mem.byteAt (s.pc.toNat + 2))
      (s.mem.byteAt (s.pc.toNat + 3))) := by
  have hh : s.mem.loadHalf s.pc = .ok (halfOfBytes (s.mem.byteAt s.pc.toNat) (s.mem.byteAt (s.pc.toNat + 1))) :=
    Memory.checked_ok (by omega) _
  unfold fetch
  rw [hh]
  simp only [hc, Bool.false_eq_true, if_false]
  exact Memory.checked_ok h _

end Sys2Proof.Machine
end

