-- ==== Sys2Proof/Laws/PerInstr.lean ====
section
/-! SUPPORT. The statements made per instruction: a constructor's encoding matches its row of spec/opcode_table.json. -/

namespace Sys2Proof.Laws.TableRow

/-- The word of the instruction is matched by a row of the opcode table with the instruction's mnemonic (R92). -/
def Statement (i : Instr) : Prop :=
  ∃ row ∈ opcodeTable, row.mnemonic = i.mnemonic ∧ encode i &&& row.mask = row.pattern

/-- A mask that covers opcode, funct3 and funct7 sees only those fields of an R-type word. -/
theorem encodeR_mask (funct7 : BitVec 7) (rs2 rs1 : RegIdx) (funct3 : BitVec 3) (rd : RegIdx) (opcode : BitVec 7) :
    encodeR funct7 rs2 rs1 funct3 rd opcode &&& 0xFE00707F = place funct7 25 ||| place funct3 12 ||| place opcode 0 := by
  unfold encodeR place
  ext i hi; interval_cases i <;> simp

theorem encodeI_mask (imm : Word) (rs1 : RegIdx) (funct3 : BitVec 3) (rd : RegIdx) (opcode : BitVec 7) :
    encodeI imm rs1 funct3 rd opcode &&& 0x0000707F = place funct3 12 ||| place opcode 0 := by
  unfold encodeI placeImmI place extractBits
  ext i hi; interval_cases i <;> simp

/-- The SYSTEM mask sees also the 12-bit field. -/
theorem encodeI_mask_system (imm : Word) (rs1 : RegIdx) (funct3 : BitVec 3) (rd : RegIdx) (opcode : BitVec 7) :
    encodeI imm rs1 funct3 rd opcode &&& 0xFFF0707F = placeImmI imm ||| place funct3 12 ||| place opcode 0 := by
  unfold encodeI placeImmI place extractBits
  ext i hi; interval_cases i <;> simp

theorem encodeS_mask (imm : Word) (rs2 rs1 : RegIdx) (funct3 : BitVec 3) (opcode : BitVec 7) :
    encodeS imm rs2 rs1 funct3 opcode &&& 0x0000707F = place funct3 12 ||| place opcode 0 := by
  unfold encodeS placeImmS place extractBits
  ext i hi; interval_cases i <;> simp

theorem encodeB_mask (imm : Word) (rs2 rs1 : RegIdx) (funct3 : BitVec 3) (opcode : BitVec 7) :
    encodeB imm rs2 rs1 funct3 opcode &&& 0x0000707F = place funct3 12 ||| place opcode 0 := by
  unfold encodeB placeImmB place extractBits
  ext i hi; interval_cases i <;> simp

theorem encodeU_mask (imm : Word) (rd : RegIdx) (opcode : BitVec 7) :
    encodeU imm rd opcode &&& 0x0000007F = place opcode 0 := by
  unfold encodeU placeImmU place extractBits
  ext i hi; interval_cases i <;> simp

theorem encodeJ_mask (imm : Word) (rd : RegIdx) (opcode : BitVec 7) :
    encodeJ imm rd opcode &&& 0x0000007F = place opcode 0 := by
  unfold encodeJ placeImmJ place extractBits
  ext i hi; interval_cases i <;> simp

theorem add (rd rs1 rs2 : RegIdx) : Statement (.add rd rs1 rs2) :=
  ⟨⟨"add", 0x00000033, 0xFE00707F⟩, by decide, rfl, (encodeR_mask ..).trans (by decide)⟩

theorem sub (rd rs1 rs2 : RegIdx) : Statement (.sub rd rs1 rs2) :=
  ⟨⟨"sub", 0x40000033, 0xFE00707F⟩, by decide, rfl, (encodeR_mask ..).trans (by decide)⟩

theorem sll (rd rs1 rs2 : RegIdx) : Statement (.sll rd rs1 rs2) :=
  ⟨⟨"sll", 0x00001033, 0xFE00707F⟩, by decide, rfl, (encodeR_mask ..).trans (by decide)⟩

theorem slt (rd rs1 rs2 : RegIdx) : Statement (.slt rd rs1 rs2) :=
  ⟨⟨"slt", 0x00002033, 0xFE00707F⟩, by decide, rfl, (encodeR_mask ..).trans (by decide)⟩

theorem sltu (rd rs1 rs2 : RegIdx) : Statement (.sltu rd rs1 rs2) :=
  ⟨⟨"sltu", 0x00003033, 0xFE00707F⟩, by decide, rfl, (encodeR_mask ..).trans (by decide)⟩

theorem xor (rd rs1 rs2 : RegIdx) : Statement (.xor rd rs1 rs2) :=
  ⟨⟨"xor", 0x00004033, 0xFE00707F⟩, by decide, rfl, (encodeR_mask ..).trans (by decide)⟩

theorem srl (rd rs1 rs2 : RegIdx) : Statement (.srl rd rs1 rs2) :=
  ⟨⟨"srl", 0x00005033, 0xFE00707F⟩, by decide, rfl, (encodeR_mask ..).trans (by decide)⟩

theorem sra (rd rs1 rs2 : RegIdx) : Statement (.sra rd rs1 rs2) :=
  ⟨⟨"sra", 0x40005033, 0xFE00707F⟩, by decide, rfl, (encodeR_mask ..).trans (by decide)⟩

theorem or (rd rs1 rs2 : RegIdx) : Statement (.or rd rs1 rs2) :=
  ⟨⟨"or", 0x00006033, 0xFE00707F⟩, by decide, rfl, (encodeR_mask ..).trans (by decide)⟩

theorem and (rd rs1 rs2 : RegIdx) : Statement (.and rd rs1 rs2) :=
  ⟨⟨"and", 0x00007033, 0xFE00707F⟩, by decide, rfl, (encodeR_mask ..).trans (by decide)⟩

theorem addi (rd rs1 : RegIdx) (imm : Word) : Statement (.addi rd rs1 imm) :=
  ⟨⟨"addi", 0x00000013, 0x0000707F⟩, by decide, rfl, (encodeI_mask ..).trans (by decide)⟩

theorem slti (rd rs1 : RegIdx) (imm : Word) : Statement (.slti rd rs1 imm) :=
  ⟨⟨"slti", 0x00002013, 0x0000707F⟩, by decide, rfl, (encodeI_mask ..).trans (by decide)⟩

theorem sltiu (rd rs1 : RegIdx) (imm : Word) : Statement (.sltiu rd rs1 imm) :=
  ⟨⟨"sltiu", 0x00003013, 0x0000707F⟩, by decide, rfl, (encodeI_mask ..).trans (by decide)⟩

theorem xori (rd rs1 : RegIdx) (imm : Word) : Statement (.xori rd rs1 imm) :=
  ⟨⟨"xori", 0x00004013, 0x0000707F⟩, by decide, rfl, (encodeI_mask ..).trans (by decide)⟩

theorem ori (rd rs1 : RegIdx) (imm : Word) : Statement (.ori rd rs1 imm) :=
  ⟨⟨"ori", 0x00006013, 0x0000707F⟩, by decide, rfl, (encodeI_mask ..).trans (by decide)⟩

theorem andi (rd rs1 : RegIdx) (imm : Word) : Statement (.andi rd rs1 imm) :=
  ⟨⟨"andi", 0x00007013, 0x0000707F⟩, by decide, rfl, (encodeI_mask ..).trans (by decide)⟩

theorem slli (rd rs1 : RegIdx) (shamt : BitVec 5) : Statement (.slli rd rs1 shamt) :=
  ⟨⟨"slli", 0x00001013, 0xFE00707F⟩, by decide, rfl, (encodeR_mask ..).trans (by decide)⟩

theorem srli (rd rs1 : RegIdx) (shamt : BitVec 5) : Statement (.srli rd rs1 shamt) :=
  ⟨⟨"srli", 0x00005013, 0xFE00707F⟩, by decide, rfl, (encodeR_mask ..).trans (by decide)⟩

theorem srai (rd rs1 : RegIdx) (shamt : BitVec 5) : Statement (.srai rd rs1 shamt) :=
  ⟨⟨"srai", 0x40005013, 0xFE00707F⟩, by decide, rfl, (encodeR_mask ..).trans (by decide)⟩

theorem lb (rd rs1 : RegIdx) (imm : Word) : Statement (.lb rd rs1 imm) :=
  ⟨⟨"lb", 0x00000003, 0x0000707F⟩, by decide, rfl, (encodeI_mask ..).trans (by decide)⟩

theorem lh (rd rs1 : RegIdx) (imm : Word) : Statement (.lh rd rs1 imm) :=
  ⟨⟨"lh", 0x00001003, 0x0000707F⟩, by decide, rfl, (encodeI_mask ..).trans (by decide)⟩

theorem lw (rd rs1 : RegIdx) (imm : Word) : Statement (.lw rd rs1 imm) :=
  ⟨⟨"lw", 0x00002003, 0x0000707F⟩, by decide, rfl, (encodeI_mask ..).trans (by decide)⟩

theorem lbu (rd rs1 : RegIdx) (imm : Word) : Statement (.lbu rd rs1 imm) :=
  ⟨⟨"lbu", 0x00004003, 0x0000707F⟩, by decide, rfl, (encodeI_mask ..).trans (by decide)⟩

theorem lhu (rd rs1 : RegIdx) (imm : Word) : Statement (.lhu rd rs1 imm) :=
  ⟨⟨"lhu", 0x00005003, 0x0000707F⟩, by decide, rfl, (encodeI_mask ..).trans (by decide)⟩

theorem sb (rs1 rs2 : RegIdx) (imm : Word) : Statement (.sb rs1 rs2 imm) :=
  ⟨⟨"sb", 0x00000023, 0x0000707F⟩, by decide, rfl, (encodeS_mask ..).trans (by decide)⟩

theorem sh (rs1 rs2 : RegIdx) (imm : Word) : Statement (.sh rs1 rs2 imm) :=
  ⟨⟨"sh", 0x00001023, 0x0000707F⟩, by decide, rfl, (encodeS_mask ..).trans (by decide)⟩

theorem sw (rs1 rs2 : RegIdx) (imm : Word) : Statement (.sw rs1 rs2 imm) :=
  ⟨⟨"sw", 0x00002023, 0x0000707F⟩, by decide, rfl, (encodeS_mask ..).trans (by decide)⟩

theorem beq (rs1 rs2 : RegIdx) (imm : Word) : Statement (.beq rs1 rs2 imm) :=
  ⟨⟨"beq", 0x00000063, 0x0000707F⟩, by decide, rfl, (encodeB_mask ..).trans (by decide)⟩

theorem bne (rs1 rs2 : RegIdx) (imm : Word) : Statement (.bne rs1 rs2 imm) :=
  ⟨⟨"bne", 0x00001063, 0x0000707F⟩, by decide, rfl, (encodeB_mask ..).trans (by decide)⟩

theorem blt (rs1 rs2 : RegIdx) (imm : Word) : Statement (.blt rs1 rs2 imm) :=
  ⟨⟨"blt", 0x00004063, 0x0000707F⟩, by decide, rfl, (encodeB_mask ..).trans (by decide)⟩

theorem bge (rs1 rs2 : RegIdx) (imm : Word) : Statement (.bge rs1 rs2 imm) :=
  ⟨⟨"bge", 0x00005063, 0x0000707F⟩, by decide, rfl, (encodeB_mask ..).trans (by decide)⟩

theorem bltu (rs1 rs2 : RegIdx) (imm : Word) : Statement (.bltu rs1 rs2 imm) :=
  ⟨⟨"bltu", 0x00006063, 0x0000707F⟩, by decide, rfl, (encodeB_mask ..).trans (by decide)⟩

theorem bgeu (rs1 rs2 : RegIdx) (imm : Word) : Statement (.bgeu rs1 rs2 imm) :=
  ⟨⟨"bgeu", 0x00007063, 0x0000707F⟩, by decide, rfl, (encodeB_mask ..).trans (by decide)⟩

theorem jal (rd : RegIdx) (imm : Word) : Statement (.jal rd imm) :=
  ⟨⟨"jal", 0x0000006F, 0x0000007F⟩, by decide, rfl, (encodeJ_mask ..).trans (by decide)⟩

theorem jalr (rd rs1 : RegIdx) (imm : Word) : Statement (.jalr rd rs1 imm) :=
  ⟨⟨"jalr", 0x00000067, 0x0000707F⟩, by decide, rfl, (encodeI_mask ..).trans (by decide)⟩

theorem lui (rd : RegIdx) (imm : Word) : Statement (.lui rd imm) :=
  ⟨⟨"lui", 0x00000037, 0x0000007F⟩, by decide, rfl, (encodeU_mask ..).trans (by decide)⟩

theorem auipc (rd : RegIdx) (imm : Word) : Statement (.auipc rd imm) :=
  ⟨⟨"auipc", 0x00000017, 0x0000007F⟩, by decide, rfl, (encodeU_mask ..).trans (by decide)⟩

theorem ecall (rd rs1 : RegIdx) : Statement (.ecall rd rs1) :=
  ⟨⟨"ecall", 0x00000073, 0xFFF0707F⟩, by decide, rfl, (encodeI_mask_system ..).trans (by decide)⟩

theorem ebreak (rd rs1 : RegIdx) : Statement (.ebreak rd rs1) :=
  ⟨⟨"ebreak", 0x00100073, 0xFFF0707F⟩, by decide, rfl, (encodeI_mask_system ..).trans (by decide)⟩

theorem mul (rd rs1 rs2 : RegIdx) : Statement (.mul rd rs1 rs2) :=
  ⟨⟨"mul", 0x02000033, 0xFE00707F⟩, by decide, rfl, (encodeR_mask ..).trans (by decide)⟩

theorem mulh (rd rs1 rs2 : RegIdx) : Statement (.mulh rd rs1 rs2) :=
  ⟨⟨"mulh", 0x02001033, 0xFE00707F⟩, by decide, rfl, (encodeR_mask ..).trans (by decide)⟩

theorem mulhsu (rd rs1 rs2 : RegIdx) : Statement (.mulhsu rd rs1 rs2) :=
  ⟨⟨"mulhsu", 0x02002033, 0xFE00707F⟩, by decide, rfl, (encodeR_mask ..).trans (by decide)⟩

theorem mulhu (rd rs1 rs2 : RegIdx) : Statement (.mulhu rd rs1 rs2) :=
  ⟨⟨"mulhu", 0x02003033, 0xFE00707F⟩, by decide, rfl, (encodeR_mask ..).trans (by decide)⟩

theorem div (rd rs1 rs2 : RegIdx) : Statement (.div rd rs1 rs2) :=
  ⟨⟨"div", 0x02004033, 0xFE00707F⟩, by decide, rfl, (encodeR_mask ..).trans (by decide)⟩

theorem divu (rd rs1 rs2 : RegIdx) : Statement (.divu rd rs1 rs2) :=
  ⟨⟨"divu", 0x02005033, 0xFE00707F⟩, by decide, rfl, (encodeR_mask ..).trans (by decide)⟩

theorem rem (rd rs1 rs2 : RegIdx) : Statement (.rem rd rs1 rs2) :=
  ⟨⟨"rem", 0x02006033, 0xFE00707F⟩, by decide, rfl, (encodeR_mask ..).trans (by decide)⟩

theorem remu (rd rs1 rs2 : RegIdx) : Statement (.remu rd rs1 rs2) :=
  ⟨⟨"remu", 0x02007033, 0xFE00707F⟩, by decide, rfl, (encodeR_mask ..).trans (by decide)⟩

end Sys2Proof.Laws.TableRow
end

