-- ==== Sys2Proof/Laws/Step.lean ====
section
/-! SUPPORT. What an instruction and a step can do, said once. -/

namespace Sys2Proof.Machine

/-- exec is the handler followed by the PC mux, for every instruction (R85). -/
theorem exec_eq_pcMux_handle (i : Instr) (s : State) : exec i s = pcMux (handle i s) := by
  cases i <;> rfl

/-- All the ways a handler changes the state: not at all, one register, a run of bytes; and pc only when it redirects. -/
inductive HandlerEffect (s : State) : Interp → Prop where
  /-- Nothing changed: an untaken branch. -/
  | nothing : HandlerEffect s (.sequential s)
  /-- One register written. -/
  | register (rd : RegIdx) (v : Word) : HandlerEffect s (.sequential (s.writeReg rd v))
  /-- A run of bytes written. -/
  | bytes (a : Nat) (bs : List Byte) : HandlerEffect s (.sequential (s.setMem (s.mem.setBytes a bs)))
  /-- pc written: a taken branch. -/
  | target (t : Word) : HandlerEffect s (.redirected (s.setPc t))
  /-- A link register and pc written. -/
  | link (rd : RegIdx) (v t : Word) : HandlerEffect s (.redirected ((s.writeReg rd v).setPc t))
  /-- A condition raised. -/
  | condition (c : Fault) : HandlerEffect s (.raised c)

theorem branch_effect (cond : Bool) (imm : Word) (s : State) : HandlerEffect s (branch cond imm s) := by
  rcases branch_cases cond imm s with ⟨_, h⟩ | ⟨_, h⟩ <;> rw [h]
  · exact .target _
  · exact .nothing

theorem load_effect {n : Nat} (access : Memory → Word → Except Fault (BitVec n)) (extend : BitVec n → Word)
    (rd rs1 : RegIdx) (imm : Word) (s : State) : HandlerEffect s (load access extend rd rs1 imm s) := by
  rcases load_cases access extend rd rs1 imm s with ⟨v, _, h⟩ | ⟨c, _, h⟩ <;> rw [h]
  · exact .register _ _
  · exact .condition _

/-- A store through a checked run of bytes has the effect of a store. -/
theorem store_effect {access : Memory → Word → Word → Except Fault Memory} {n : Nat} {bytes : Word → List Byte}
    (ha : ∀ m a v, access m a v = m.checked a n (m.setBytes a.toNat (bytes v)))
    (rs1 rs2 : RegIdx) (imm : Word) (s : State) : HandlerEffect s (store access rs1 rs2 imm s) := by
  rcases store_cases access rs1 rs2 imm s with ⟨m, h1, h⟩ | ⟨c, _, h⟩ <;> rw [h]
  · rw [ha] at h1
    rw [(Memory.checked_eq_ok h1).2]
    exact .bytes _ _
  · exact .condition _

/-- Every handler's effect is one of the six. -/
theorem handle_effect (i : Instr) (s : State) : HandlerEffect s (handle i s) := by
  cases i with
  | lb | lh | lw | lbu | lhu => exact load_effect _ _ _ _ _ s
  | sb | sh | sw => exact store_effect (fun _ _ _ => rfl) _ _ _ s
  | beq | bne | blt | bge | bltu | bgeu => exact branch_effect _ _ s
  | jal | jalr => exact .link _ _ _
  | ecall | ebreak | mul | mulh | mulhsu | mulhu | div | divu | rem | remu => exact .condition _
  | _ => exact .register _ _

/-- All a step can do (R85): a condition of the fetch, of dispatch, or the decoded instruction. -/
theorem step_cases (s : State) :
    (∃ c, fetch s = .error c ∧ step s = .fault c) ∨
      (∃ w, fetch s = .ok w ∧
        ((∃ i, decodeWord w = .instr i ∧ step s = exec i s) ∨
          (∃ x, decodeWord w = .unknownOpcode x ∧ step s = .fault (.unknownOpcode x)) ∨
          (∃ x, decodeWord w = .unknownFunct x ∧ step s = .fault (.unknownFunct x)))) := by
  unfold step
  cases hf : fetch s with
  | error c => exact .inl ⟨c, rfl, rfl⟩
  | ok w =>
    refine .inr ⟨w, rfl, ?_⟩
    cases hd : decodeWord w with
    | instr i => exact .inl ⟨i, rfl, by simp only [hd]⟩
    | unknownOpcode x => exact .inr (.inl ⟨x, rfl, by simp only [hd]⟩)
    | unknownFunct x => exact .inr (.inr ⟨x, rfl, by simp only [hd]⟩)

/-- A completed step is a completed instruction. -/
theorem step_next {s t : State} (h : step s = .next t) :
    ∃ w i, fetch s = .ok w ∧ decodeWord w = .instr i ∧ exec i s = .next t := by
  rcases step_cases s with ⟨c, _, h2⟩ | ⟨w, hf, ⟨i, hi, h2⟩ | ⟨x, _, h2⟩ | ⟨x, _, h2⟩⟩
  · rw [h2] at h; cases h
  · exact ⟨w, i, hf, hi, h2 ▸ h⟩
  · rw [h2] at h; cases h
  · rw [h2] at h; cases h

end Sys2Proof.Machine
end

