-- ==== Sys2Proof/Tests/Slice0.lean ====
section
/-! SUPPORT. Tests of the model: ill-formed instructions refused, words written out from the spec's encodings decoded, single
steps with the results spec/41 to spec/48 and spec/95_test_vectors.md give, and, for every statement with hypotheses, a concrete
state and operands that meet them. -/

namespace Sys2Proof.Tests

open Sys2Proof.Machine Sys2Proof.Claims

/-! ### Helpers -/

/-- The reset state with a pc, some registers and some bytes of memory. -/
def st (pc : Word) (xs : List (RegIdx × Word)) (bytes : List Host.Cell) : State :=
  (xs.foldl (fun (s : State) x => s.writeReg x.1 x.2) (State.reset.setMem (layCells State.reset.mem bytes))).setPc pc

/-- The state after a step that completed. -/
def after (s : State) : Option State :=
  match step s with
  | .next t => some t
  | _ => none

/-- One step of the word `w` placed at pc: register `r` and pc after it. -/
def regPc (w : Nat) (pc : Word) (xs : List (RegIdx × Word)) (bytes : List Host.Cell) (r : RegIdx) : Option (Word × Word) :=
  (after ((st pc xs bytes).withFetchWord 32 w)).map fun t => (t.readReg r, t.pc)

/-- One step of the word `w` placed at pc: `n` bytes of memory from `a` after it, and pc. -/
def bytesPc (w : Nat) (pc : Word) (xs : List (RegIdx × Word)) (bytes : List Host.Cell) (a n : Nat) :
    Option (List Byte × Word) :=
  (after ((st pc xs bytes).withFetchWord 32 w)).map fun t => (bytesFrom t a n, t.pc)

/-- The condition that ends a step. -/
def raised (s : State) : Option Fault :=
  match step s with
  | .fault c => some c
  | _ => none

/-- One step of the word `w` placed at pc: the condition that ended it. -/
def raisedBy (w : Nat) (pc : Word) (xs : List (RegIdx × Word)) : Option Fault :=
  raised ((st pc xs []).withFetchWord 32 w)

/-- The instruction a word decodes to. -/
def instrOf (w : Word) : Option Instr :=
  match decodeWord w with
  | .instr i => some i
  | _ => none

/-! ### Ill-formed instructions are refused (R50 to R54) -/

theorem test_ill_formed_imm12_high : (Instr.addi 1 1 2048).wellFormed = false := by decide

theorem test_ill_formed_imm12_low : (Instr.sw 1 1 (-2049)).wellFormed = false := by decide

theorem test_ill_formed_branch_high : (Instr.beq 1 2 4096).wellFormed = false := by decide

theorem test_ill_formed_branch_low : (Instr.bne 1 2 (-4098)).wellFormed = false := by decide

theorem test_ill_formed_branch_odd : (Instr.blt 1 2 7).wellFormed = false := by decide

theorem test_ill_formed_jal_high : (Instr.jal 1 1048576).wellFormed = false := by decide

theorem test_ill_formed_jal_low : (Instr.jal 1 (-1048578)).wellFormed = false := by decide

theorem test_ill_formed_jal_odd : (Instr.jal 1 1).wellFormed = false := by decide

theorem test_ill_formed_upper : (Instr.lui 1 0x12345001).wellFormed = false := by decide

theorem test_well_formed_bounds :
    (Instr.beq 1 2 (-4096)).wellFormed = true ∧ (Instr.jal 1 1048574).wellFormed = true ∧
    (Instr.addi 1 1 (-2048)).wellFormed = true ∧ (Instr.lui 1 0xFFFFF000).wellFormed = true := by decide

/-! ### Words written out field by field from the encodings (R49 to R55, R61 to R72) -/

/-- R63. -/
theorem test_decode_op :
    instrOf (0b0000000#7 ++ 2#5 ++ 1#5 ++ 0b000#3 ++ 3#5 ++ 0b0110011#7) = some (.add 3 1 2) ∧
    instrOf (0b0100000#7 ++ 2#5 ++ 1#5 ++ 0b000#3 ++ 3#5 ++ 0b0110011#7) = some (.sub 3 1 2) ∧
    instrOf (0b0000000#7 ++ 2#5 ++ 1#5 ++ 0b001#3 ++ 3#5 ++ 0b0110011#7) = some (.sll 3 1 2) ∧
    instrOf (0b0000000#7 ++ 2#5 ++ 1#5 ++ 0b010#3 ++ 3#5 ++ 0b0110011#7) = some (.slt 3 1 2) ∧
    instrOf (0b0000000#7 ++ 2#5 ++ 1#5 ++ 0b011#3 ++ 3#5 ++ 0b0110011#7) = some (.sltu 3 1 2) ∧
    instrOf (0b0000000#7 ++ 2#5 ++ 1#5 ++ 0b100#3 ++ 3#5 ++ 0b0110011#7) = some (.xor 3 1 2) ∧
    instrOf (0b0000000#7 ++ 2#5 ++ 1#5 ++ 0b101#3 ++ 3#5 ++ 0b0110011#7) = some (.srl 3 1 2) ∧
    instrOf (0b0100000#7 ++ 2#5 ++ 1#5 ++ 0b101#3 ++ 3#5 ++ 0b0110011#7) = some (.sra 3 1 2) ∧
    instrOf (0b0000000#7 ++ 2#5 ++ 1#5 ++ 0b110#3 ++ 3#5 ++ 0b0110011#7) = some (.or 3 1 2) ∧
    instrOf (0b0000000#7 ++ 2#5 ++ 1#5 ++ 0b111#3 ++ 3#5 ++ 0b0110011#7) = some (.and 3 1 2) := by decide

/-- R63, the M rows. -/
theorem test_decode_m :
    instrOf (0b0000001#7 ++ 2#5 ++ 1#5 ++ 0b000#3 ++ 3#5 ++ 0b0110011#7) = some (.mul 3 1 2) ∧
    instrOf (0b0000001#7 ++ 2#5 ++ 1#5 ++ 0b001#3 ++ 3#5 ++ 0b0110011#7) = some (.mulh 3 1 2) ∧
    instrOf (0b0000001#7 ++ 2#5 ++ 1#5 ++ 0b010#3 ++ 3#5 ++ 0b0110011#7) = some (.mulhsu 3 1 2) ∧
    instrOf (0b0000001#7 ++ 2#5 ++ 1#5 ++ 0b011#3 ++ 3#5 ++ 0b0110011#7) = some (.mulhu 3 1 2) ∧
    instrOf (0b0000001#7 ++ 2#5 ++ 1#5 ++ 0b100#3 ++ 3#5 ++ 0b0110011#7) = some (.div 3 1 2) ∧
    instrOf (0b0000001#7 ++ 2#5 ++ 1#5 ++ 0b101#3 ++ 3#5 ++ 0b0110011#7) = some (.divu 3 1 2) ∧
    instrOf (0b0000001#7 ++ 2#5 ++ 1#5 ++ 0b110#3 ++ 3#5 ++ 0b0110011#7) = some (.rem 3 1 2) ∧
    instrOf (0b0000001#7 ++ 2#5 ++ 1#5 ++ 0b111#3 ++ 3#5 ++ 0b0110011#7) = some (.remu 3 1 2) := by decide

/-- R50, R55, R64: the immediate 0x801 is -2047. -/
theorem test_decode_op_imm :
    instrOf (0b100000000001#12 ++ 1#5 ++ 0b000#3 ++ 3#5 ++ 0b0010011#7) = some (.addi 3 1 (-2047)) ∧
    instrOf (0b100000000001#12 ++ 1#5 ++ 0b010#3 ++ 3#5 ++ 0b0010011#7) = some (.slti 3 1 (-2047)) ∧
    instrOf (0b100000000001#12 ++ 1#5 ++ 0b011#3 ++ 3#5 ++ 0b0010011#7) = some (.sltiu 3 1 (-2047)) ∧
    instrOf (0b100000000001#12 ++ 1#5 ++ 0b100#3 ++ 3#5 ++ 0b0010011#7) = some (.xori 3 1 (-2047)) ∧
    instrOf (0b100000000001#12 ++ 1#5 ++ 0b110#3 ++ 3#5 ++ 0b0010011#7) = some (.ori 3 1 (-2047)) ∧
    instrOf (0b100000000001#12 ++ 1#5 ++ 0b111#3 ++ 3#5 ++ 0b0010011#7) = some (.andi 3 1 (-2047)) ∧
    instrOf (0b0000000#7 ++ 31#5 ++ 1#5 ++ 0b001#3 ++ 3#5 ++ 0b0010011#7) = some (.slli 3 1 31) ∧
    instrOf (0b0000000#7 ++ 31#5 ++ 1#5 ++ 0b101#3 ++ 3#5 ++ 0b0010011#7) = some (.srli 3 1 31) ∧
    instrOf (0b0100000#7 ++ 31#5 ++ 1#5 ++ 0b101#3 ++ 3#5 ++ 0b0010011#7) = some (.srai 3 1 31) := by decide

/-- R50, R65. -/
theorem test_decode_load :
    instrOf (0b111111111110#12 ++ 1#5 ++ 0b000#3 ++ 3#5 ++ 0b0000011#7) = some (.lb 3 1 (-2)) ∧
    instrOf (0b111111111110#12 ++ 1#5 ++ 0b001#3 ++ 3#5 ++ 0b0000011#7) = some (.lh 3 1 (-2)) ∧
    instrOf (0b111111111110#12 ++ 1#5 ++ 0b010#3 ++ 3#5 ++ 0b0000011#7) = some (.lw 3 1 (-2)) ∧
    instrOf (0b111111111110#12 ++ 1#5 ++ 0b100#3 ++ 3#5 ++ 0b0000011#7) = some (.lbu 3 1 (-2)) ∧
    instrOf (0b111111111110#12 ++ 1#5 ++ 0b101#3 ++ 3#5 ++ 0b0000011#7) = some (.lhu 3 1 (-2)) := by decide

/-- R51, R68: imm[11:5] = 1000000, imm[4:0] = 00101, that is -2048 + 5; base rs1 = x1, data rs2 = x2. -/
theorem test_decode_store :
    instrOf (0b1000000#7 ++ 2#5 ++ 1#5 ++ 0b000#3 ++ 0b00101#5 ++ 0b0100011#7) = some (.sb 1 2 (-2043)) ∧
    instrOf (0b1000000#7 ++ 2#5 ++ 1#5 ++ 0b001#3 ++ 0b00101#5 ++ 0b0100011#7) = some (.sh 1 2 (-2043)) ∧
    instrOf (0b1000000#7 ++ 2#5 ++ 1#5 ++ 0b010#3 ++ 0b00101#5 ++ 0b0100011#7) = some (.sw 1 2 (-2043)) := by decide

/-- R52, R69: imm[11] = 1, imm[10:5] = 000001, imm[4:1] = 0010, that is 2048 + 32 + 4; and imm[12] alone. -/
theorem test_decode_branch :
    instrOf (0b0#1 ++ 0b000001#6 ++ 2#5 ++ 1#5 ++ 0b000#3 ++ 0b0010#4 ++ 0b1#1 ++ 0b1100011#7) = some (.beq 1 2 2084) ∧
    instrOf (0b0#1 ++ 0b000001#6 ++ 2#5 ++ 1#5 ++ 0b001#3 ++ 0b0010#4 ++ 0b1#1 ++ 0b1100011#7) = some (.bne 1 2 2084) ∧
    instrOf (0b0#1 ++ 0b000001#6 ++ 2#5 ++ 1#5 ++ 0b100#3 ++ 0b0010#4 ++ 0b1#1 ++ 0b1100011#7) = some (.blt 1 2 2084) ∧
    instrOf (0b0#1 ++ 0b000001#6 ++ 2#5 ++ 1#5 ++ 0b101#3 ++ 0b0010#4 ++ 0b1#1 ++ 0b1100011#7) = some (.bge 1 2 2084) ∧
    instrOf (0b0#1 ++ 0b000001#6 ++ 2#5 ++ 1#5 ++ 0b110#3 ++ 0b0010#4 ++ 0b1#1 ++ 0b1100011#7) = some (.bltu 1 2 2084) ∧
    instrOf (0b0#1 ++ 0b000001#6 ++ 2#5 ++ 1#5 ++ 0b111#3 ++ 0b0010#4 ++ 0b1#1 ++ 0b1100011#7) = some (.bgeu 1 2 2084) ∧
    instrOf (0b1#1 ++ 0b000000#6 ++ 2#5 ++ 1#5 ++ 0b000#3 ++ 0b0000#4 ++ 0b0#1 ++ 0b1100011#7) = some (.beq 1 2 (-4096)) := by decide

/-- R54, R66, R70: imm[19:12] = 00000011, imm[11] = 1, imm[10:1] = 0000000101, that is 12288 + 2048 + 10. -/
theorem test_decode_jumps :
    instrOf (0b0#1 ++ 0b0000000101#10 ++ 0b1#1 ++ 0b00000011#8 ++ 3#5 ++ 0b1101111#7) = some (.jal 3 14346) ∧
    instrOf (0b1#1 ++ 0b0000000000#10 ++ 0b0#1 ++ 0b00000000#8 ++ 3#5 ++ 0b1101111#7) = some (.jal 3 (-1048576)) ∧
    instrOf (0b011111111111#12 ++ 1#5 ++ 0b000#3 ++ 3#5 ++ 0b1100111#7) = some (.jalr 3 1 2047) := by decide

/-- R53, R71, R72. -/
theorem test_decode_upper :
    instrOf (0x80001#20 ++ 3#5 ++ 0b0110111#7) = some (.lui 3 0x80001000) ∧
    instrOf (0x80001#20 ++ 3#5 ++ 0b0010111#7) = some (.auipc 3 0x80001000) := by decide

/-- R67; rd and rs1 are not examined. -/
theorem test_decode_system :
    instrOf (0x000#12 ++ 0#5 ++ 0b000#3 ++ 0#5 ++ 0b1110011#7) = some (.ecall 0 0) ∧
    instrOf (0x001#12 ++ 0#5 ++ 0b000#3 ++ 0#5 ++ 0b1110011#7) = some (.ebreak 0 0) ∧
    instrOf (0x000#12 ++ 7#5 ++ 0b000#3 ++ 31#5 ++ 0b1110011#7) = some (.ecall 31 7) := by decide

/-- R73, R155: the all-zero and all-ones words, fence, fence.i; R90: low bits 01. -/
theorem test_decode_unknown_opcode :
    decodeWord 0x00000000 = .unknownOpcode 0x00000000 ∧
    decodeWord 0xFFFFFFFF = .unknownOpcode 0xFFFFFFFF ∧
    decodeWord 0x0FF0000F = .unknownOpcode 0x0FF0000F ∧
    decodeWord 0x0000100F = .unknownOpcode 0x0000100F ∧
    decodeWord 0x00000001 = .unknownOpcode 0x00000001 := by decide

/-- R74, R75, R115, R156, R157. -/
theorem test_decode_unknown_funct :
    decodeWord 0x02009113 = .unknownFunct 0x02009113 ∧
    decodeWord 0x300022F3 = .unknownFunct 0x300022F3 ∧
    decodeWord 0xC0002573 = .unknownFunct 0xC0002573 ∧
    decodeWord 0x30200073 = .unknownFunct 0x30200073 ∧
    decodeWord 0x10500073 = .unknownFunct 0x10500073 ∧
    decodeWord 0x00004073 = .unknownFunct 0x00004073 ∧
    decodeWord 0x0000B003 = .unknownFunct 0x0000B003 ∧
    decodeWord 0x0000B023 = .unknownFunct 0x0000B023 ∧
    decodeWord 0x00002063 = .unknownFunct 0x00002063 ∧
    decodeWord 0x00001067 = .unknownFunct 0x00001067 ∧
    decodeWord 0x04000033 = .unknownFunct 0x04000033 ∧
    decodeWord 0x40001033 = .unknownFunct 0x40001033 := by decide

/-- R95, R130, R124, R136, R142. -/
theorem test_encode_is_the_word :
    encode (.sub 3 1 2) = 0x402081B3 ∧
    encode (.bne 1 2 (-8)) = 0xFE209CE3 ∧
    encode (.sb 1 2 2047) = 0x7E208FA3 ∧
    encode (.jal 5 (-8)) = 0xFF9FF2EF ∧
    encode (.addi 5 5 (-273)) = 0xEEF28293 ∧
    encode (.lui 5 0xDEADC000) = 0xDEADC2B7 := by decide

/-- R28, R56, R94, R154. -/
theorem test_decode_bytes :
    decodeBytes [0xB3, 0x81, 0x20, 0x00, 0x73] = .word (.instr (.add 3 1 2)) [0x73] ∧
    decodeBytes [0x01, 0x00, 0x73] = .compressed 0x0001 [0x73] ∧ decodeBytes [0xB3, 0x81, 0x20] = .truncated := by decide

/-! ### Single steps -/

/-- R94. -/
theorem test_add : regPc 0x002081B3 0x100 [(1, 5), (2, 3)] [] 3 = some (8, 0x104) := by decide

/-- R94: `add x1, x1, x1`. -/
theorem test_add_wraps_in_place : regPc 0x001080B3 0x100 [(1, 0x80000001)] [] 1 = some (2, 0x104) := by decide

/-- R104. -/
theorem test_add_to_x0 : regPc 0x00208033 0x100 [(1, 5), (2, 3)] [] 0 = some (0, 0x104) := by decide

/-- R95. -/
theorem test_sub : regPc 0x402081B3 0x100 [(1, 0), (2, 1)] [] 3 = some (0xFFFFFFFF, 0x104) := by decide

/-- R96. -/
theorem test_sll : regPc 0x002091B3 0x100 [(1, 0x80000001), (2, 33)] [] 3 = some (2, 0x104) := by decide

/-- R97. -/
theorem test_slt : regPc 0x0020A1B3 0x100 [(1, 0xFFFFFFFF), (2, 1)] [] 3 = some (1, 0x104) := by decide

/-- R97. -/
theorem test_slt_is_exact : regPc 0x0020A1B3 0x100 [(1, 0x80000000), (2, 0)] [] 3 = some (1, 0x104) := by decide

/-- R98. -/
theorem test_sltu : regPc 0x0020B1B3 0x100 [(1, 0xFFFFFFFF), (2, 1)] [] 3 = some (0, 0x104) := by decide

/-- R98. -/
theorem test_sltu_x0 : regPc 0x002031B3 0x100 [(2, 1)] [] 3 = some (1, 0x104) := by decide

/-- R99. -/
theorem test_xor : regPc 0x0020C1B3 0x100 [(1, 0xFF00FF00), (2, 0x0FF00FF0)] [] 3 = some (0xF0F0F0F0, 0x104) := by decide

/-- R100. -/
theorem test_srl : regPc 0x0020D1B3 0x100 [(1, 0x80000000), (2, 4)] [] 3 = some (0x08000000, 0x104) := by decide

/-- R101. -/
theorem test_sra : regPc 0x4020D1B3 0x100 [(1, 0x80000000), (2, 4)] [] 3 = some (0xF8000000, 0x104) := by decide

/-- R101. -/
theorem test_sra_amount_masked : regPc 0x4020D1B3 0x100 [(1, 0x7FFFFFFF), (2, 63)] [] 3 = some (0, 0x104) := by decide

/-- R102. -/
theorem test_or : regPc 0x0020E1B3 0x100 [(1, 0xFF00FF00), (2, 0x0FF00FF0)] [] 3 = some (0xFFF0FFF0, 0x104) := by decide

/-- R103. -/
theorem test_and : regPc 0x0020F1B3 0x100 [(1, 0xFF00FF00), (2, 0x0FF00FF0)] [] 3 = some (0x0F000F00, 0x104) := by decide

/-- R106. -/
theorem test_addi_wraps : regPc 0x00108113 0x100 [(1, 0xFFFFFFFF)] [] 2 = some (0, 0x104) := by decide

/-- R107. -/
theorem test_slti : regPc 0xFFF0A113 0x100 [(1, 0xFFFFFFFE)] [] 2 = some (1, 0x104) := by decide

/-- R107. -/
theorem test_slti_not_less : regPc 0x0000A113 0x100 [(1, 5)] [] 2 = some (0, 0x104) := by decide

/-- R108. -/
theorem test_sltiu : regPc 0xFFF0B113 0x100 [(1, 5)] [] 2 = some (1, 0x104) := by decide

/-- R108. -/
theorem test_sltiu_equal : regPc 0xFFF0B113 0x100 [(1, 0xFFFFFFFF)] [] 2 = some (0, 0x104) := by decide

/-- R109. -/
theorem test_xori : regPc 0xFFF0C113 0x100 [(1, 0x12345678)] [] 2 = some (0xEDCBA987, 0x104) := by decide

/-- R110. -/
theorem test_ori : regPc 0x8000E113 0x100 [(1, 1)] [] 2 = some (0xFFFFF801, 0x104) := by decide

/-- R111. -/
theorem test_andi : regPc 0xFF00F113 0x100 [(1, 0x12345678)] [] 2 = some (0x12345670, 0x104) := by decide

/-- R112. -/
theorem test_slli : regPc 0x00409113 0x100 [(1, 0xF000000F)] [] 2 = some (0x000000F0, 0x104) := by decide

/-- R113. -/
theorem test_srli : regPc 0x0040D113 0x100 [(1, 0xF000000F)] [] 2 = some (0x0F000000, 0x104) := by decide

/-- R114. -/
theorem test_srai : regPc 0x4040D113 0x100 [(1, 0xF000000F)] [] 2 = some (0xFF000000, 0x104) := by decide

/-- R117. -/
theorem test_lb_base_is_rd : regPc 0x00008083 0x100 [(1, 4)] [(4, 0xAB)] 1 = some (0xFFFFFFAB, 0x104) := by decide

/-- R120. -/
theorem test_lbu : regPc 0x0000C083 0x100 [(1, 4)] [(4, 0xAB)] 1 = some (0x000000AB, 0x104) := by decide

/-- The memory of R118. -/
def mem118 : List Host.Cell := [(0x200, 0x80), (0x201, 0x91), (0x202, 0xA2), (0x203, 0xB3), (0x204, 0x44), (0x205, 0x55)]

/-- R118. -/
theorem test_lh_odd : regPc 0x00131283 0x100 [(6, 0x200)] mem118 5 = some (0xFFFFA291, 0x104) := by decide

/-- R121. -/
theorem test_lhu_odd : regPc 0x00335283 0x100 [(6, 0x200)] mem118 5 = some (0x000044B3, 0x104) := by decide

/-- R119. -/
theorem test_lw : regPc 0xFFC32283 0x100 [(6, 0x204)] mem118 5 = some (0xB3A29180, 0x104) := by decide

/-- R119. -/
theorem test_lw_unaligned : regPc 0x00132283 0x100 [(6, 0x200)] mem118 5 = some (0x44B3A291, 0x104) := by decide

/-- R124. -/
theorem test_sb :
    bytesPc 0x00208023 0x100 [(1, 4), (2, 0x123456AB)] [(3, 0x11), (5, 0x22)] 3 3 = some ([0x11, 0xAB, 0x22], 0x104) := by decide

/-- R124. -/
theorem test_sb_longest_displacement :
    bytesPc 0x80208023 0x200 [(1, 0x900), (2, 0xCD)] [] 0x100 1 = some ([0xCD], 0x204) := by decide

/-- R125. -/
theorem test_sh_odd :
    bytesPc 0x002090A3 0x100 [(1, 0x300), (2, 0x1234BEEF)] [(0x303, 0x77)] 0x300 4 = some ([0x00, 0xEF, 0xBE, 0x77], 0x104) := by decide

/-- R126. -/
theorem test_sw :
    bytesPc 0x0020A023 0x100 [(1, 0x300), (2, 0xDEADBEEF)] [] 0x300 4 = some ([0xEF, 0xBE, 0xAD, 0xDE], 0x104) := by decide

/-- R126. -/
theorem test_sw_unaligned :
    bytesPc 0xFE20AEA3 0x100 [(1, 0x304), (2, 0xDEADBEEF)] [] 0x301 4 = some ([0xEF, 0xBE, 0xAD, 0xDE], 0x104) := by decide

/-- R129. -/
theorem test_beq_taken : regPc 0x00208463 100 [(1, 10), (2, 10)] [] 1 = some (10, 108) := by decide

/-- R129. -/
theorem test_beq_not_taken : regPc 0x00208463 100 [(1, 10), (2, 11)] [] 1 = some (10, 104) := by decide

/-- R130. -/
theorem test_bne_taken : regPc 0xFE209CE3 0x100 [(1, 1), (2, 2)] [] 1 = some (1, 0xF8) := by decide

/-- R130. -/
theorem test_bne_not_taken : regPc 0xFE209CE3 0x100 [(1, 2), (2, 2)] [] 1 = some (2, 0x104) := by decide

/-- R131. -/
theorem test_blt_taken :
    regPc 0x0020C863 0x100 [(1, 0x80000000), (2, 0x7FFFFFFF)] [] 1 = some (0x80000000, 0x110) := by decide

/-- R131. -/
theorem test_blt_not_taken : regPc 0x0020C863 0x100 [(1, 1), (2, 0xFFFFFFFF)] [] 1 = some (1, 0x104) := by decide

/-- R132. -/
theorem test_bge_taken : regPc 0x0020D863 0x100 [(1, 5), (2, 5)] [] 1 = some (5, 0x110) := by decide

/-- R132. -/
theorem test_bge_not_taken : regPc 0x0020D863 0x100 [(1, 0x80000000), (2, 0)] [] 1 = some (0x80000000, 0x104) := by decide

/-- R133. -/
theorem test_bltu_taken : regPc 0x0020E863 0x100 [(1, 1), (2, 0xFFFFFFFF)] [] 1 = some (1, 0x110) := by decide

/-- R133. -/
theorem test_bltu_not_taken : regPc 0x0020E863 0x100 [(1, 0xFFFFFFFF), (2, 1)] [] 2 = some (1, 0x104) := by decide

/-- R134. -/
theorem test_bgeu_taken : regPc 0x0020F863 0x100 [(1, 0xFFFFFFFF), (2, 1)] [] 2 = some (1, 0x110) := by decide

/-- R134. -/
theorem test_bgeu_not_taken : regPc 0x0020F863 0x100 [(1, 0), (2, 1)] [] 2 = some (1, 0x104) := by decide

/-- R136. -/
theorem test_jal : regPc 0x010000EF 200 [] [] 1 = some (204, 216) := by decide

/-- R136. -/
theorem test_jal_wraps : regPc 0xFF9FF2EF 4 [] [] 5 = some (8, 0xFFFFFFFC) := by decide

/-- R137. -/
theorem test_jalr_base_is_rd : regPc 0x000080E7 0x100 [(1, 0x200)] [] 1 = some (0x104, 0x200) := by decide

/-- R137: bit 0 is not cleared. -/
theorem test_jalr_odd_target : regPc 0x001280E7 0x100 [(5, 0x200)] [] 1 = some (0x104, 0x201) := by decide

/-- R140. -/
theorem test_lui : regPc 0xFFFFF2B7 0x100 [(5, 7)] [] 5 = some (0xFFFFF000, 0x104) := by decide

/-- R141. -/
theorem test_auipc : regPc 0x12345297 0x100 [] [] 5 = some (0x12345100, 0x104) := by decide

/-- R141, at the last word of memory. -/
theorem test_auipc_wraps : regPc 0xFFFFF297 0x1FFC [] [] 5 = some (0x00000FFC, 0x2000) := by decide

/-- R144. -/
theorem test_ecall : raisedBy 0x00000073 0x20 [] = some (.unimplemented (.ecall 0x00000073)) := by decide

/-- R145. -/
theorem test_ebreak : raisedBy 0x00100073 0x24 [] = some (.unimplemented (.ebreak 0x00100073)) := by decide

/-- R146. -/
theorem test_mul : raisedBy 0x022081B3 0x100 [(1, 3), (2, 0)] = some (.unimplemented (.m 0x022081B3)) := by decide

/-- R147. -/
theorem test_mulh : raisedBy 0x022091B3 0x100 [(1, 3), (2, 0)] = some (.unimplemented (.m 0x022091B3)) := by decide

/-- R148. -/
theorem test_mulhsu : raisedBy 0x0220A1B3 0x100 [(1, 3), (2, 0)] = some (.unimplemented (.m 0x0220A1B3)) := by decide

/-- R149. -/
theorem test_mulhu : raisedBy 0x0220B1B3 0x100 [(1, 3), (2, 0)] = some (.unimplemented (.m 0x0220B1B3)) := by decide

/-- R150. -/
theorem test_div : raisedBy 0x0220C1B3 0x100 [(1, 3), (2, 0)] = some (.unimplemented (.m 0x0220C1B3)) := by decide

/-- R151. -/
theorem test_divu : raisedBy 0x0220D1B3 0x100 [(1, 3), (2, 0)] = some (.unimplemented (.m 0x0220D1B3)) := by decide

/-- R152. -/
theorem test_rem : raisedBy 0x0220E1B3 0x100 [(1, 3), (2, 0)] = some (.unimplemented (.m 0x0220E1B3)) := by decide

/-- R153. -/
theorem test_remu : raisedBy 0x0220F1B3 0x100 [(1, 3), (2, 0)] = some (.unimplemented (.m 0x0220F1B3)) := by decide

/-- R126: the source's bounds scenario. -/
theorem test_sw_out_of_bounds : raisedBy 0x0020A023 0x100 [(1, 8190), (2, 1)] = some (.memoryOutOfBounds 8190 4) := by decide

/-- R122. -/
theorem test_lw_span_does_not_wrap : raisedBy 0xFFF02283 0x100 [] = some (.memoryOutOfBounds 0xFFFFFFFF 4) := by decide

/-- R122. -/
theorem test_lw_to_x0_still_checked : raisedBy 0x00032003 0x100 [(6, 8190)] = some (.memoryOutOfBounds 8190 4) := by decide

/-- R122: the address sum wraps to 0. -/
theorem test_lw_address_wraps :
    regPc 0x00432283 0x100 [(6, 0xFFFFFFFC)] [(0, 0x78), (1, 0x56)] 5 = some (0x5678, 0x104) := by decide

/-- R154. -/
theorem test_fetch_compressed : raised (st 0x40 [] [(0x40, 0x01)]) = some (.unimplemented (.compressed 0x0001)) := by decide

/-- R83, R135, R165. -/
theorem test_fetch_past_the_end :
    raised (st 8191 [] [(8191, 0xB3)]) = some (.memoryOutOfBounds 8191 2) ∧
    raised (st 8190 [] [(8190, 0xB3)]) = some (.memoryOutOfBounds 8190 4) ∧
    raised (st 8192 [] []) = some (.memoryOutOfBounds 8192 2) ∧
    raised (st 0xFFFFFFFC [] []) = some (.memoryOutOfBounds 0xFFFFFFFC 2) := by decide

/-- R83: the last word of memory. -/
theorem test_fetch_last_word : regPc 0x00000013 8188 [] [] 1 = some (0, 8192) := by decide

/-- Writing the unlisted byte removes the entry (R18, R26). -/
theorem test_memory_stays_canonical :
    ((st 0 [] [(4, 0xAB), (9, 1)]).mem.setByte 4 0).cells = [(9, 1)] ∧
    ((st 0 [] [(9, 1)]).mem.setByte 4 7).cells = [(4, 7), (9, 1)] ∧ ((st 0 [] []).mem.setByte 8192 7).cells = [] := by decide

/-- R154, D7: empty memory is a compressed half-word. -/
theorem test_first_step_after_reset :
    raised State.reset = some (.unimplemented (.compressed 0)) ∧
    run 5 State.reset = .raised (.unimplemented (.compressed 0)) State.reset 0 := by decide

/-- R88, R176, R178: `addi x1, x0, 5; ecall`. -/
theorem test_launched_program :
    (launch { image := bytesOfWord 0x00500093 ++ bytesOfWord 0x00000073 }).map (fun s => match run 5 s with
      | .raised c t n => (some (c, t.readReg 1, t.pc, n))
      | _ => none) = some (some (.unimplemented (.ecall 0x73), 5, 4, 1)) := by decide

/-- R5, D20. -/
theorem test_launch_limits :
    launch { memSize := 2 ^ 32 + 1 } = none ∧ launch { memSize := 3, image := bytesOfWord 0 } = none ∧
    (launch { memSize := 4, image := bytesOfWord 0 }).isSome = true ∧ (launch { memSize := 0 }).isSome = true := by decide

/-- R79, R142. -/
theorem test_pseudo :
    expandPseudo (.li 5 0xDEADBEEF) = [.lui 5 0xDEADC000, .addi 5 5 (-273)] ∧
    expandPseudo (.ble 1 2 8) = [.bge 2 1 8] ∧ expandPseudo .ret = [.jalr 0 1 0] := by decide

/-- R78, R94, R124, R130, R140. -/
theorem test_asm :
    asmText (.sb 1 2 (-2048)) = "sb x2, -2048(x1)" ∧ asmText (.add 3 1 2) = "add x3, x1, x2" ∧
    asmText (.lui 5 0x12345000) = "lui x5, 74565" ∧ asmText (.bne 1 2 (-8)) = "bne x1, x2, -8" := by decide

/-! ### The hypotheses of the statements can be met -/

theorem witness_RegisterZeroReadsZeroAndOthersReadBack :
    (31 : RegIdx) ≠ 0 ∧ ((st 0 [] []).writeReg 31 7).readReg 31 = 7 ∧ ((st 0 [(1, 5)] []).writeReg 31 7).readReg 1 = 5 := by
  decide

/-- The ranges of the R-type fields, and the two extreme splits. -/
theorem witness_ExtractBitsIsFloorModAndReconstructs :
    (0 ≤ 31 ∧ 31 ≤ 31) ∧ (31 ≤ 31 ∧ 31 ≤ 31) ∧ Covers 32 [25, 20, 15, 12, 7, 0] ∧ Covers 32 [0] ∧
      splitSum 0xDEADBEEF 32 [25, 20, 15, 12, 7, 0] = 0xDEADBEEF := by
  simp only [Covers]; decide

/-- Both ends of each range, with every other bit set. -/
theorem witness_ImmediateEncodersInvertTheDecoders :
    ((-4096 : Int) % 2 = 0 ∧ (4094 : Int) % 2 = 0 ∧ (0x01FFF07F : Word) &&& 0xFE000F80 = 0 ∧
      (immB (encodeBImm (-4096) ||| 0x01FFF07F)).toInt = -4096 ∧ (immB (encodeBImm 4094 ||| 0x01FFF07F)).toInt = 4094) ∧
    ((0x00000FFF : Word) &&& 0xFFFFF000 = 0 ∧ (immJ (encodeJImm (-1048576) ||| 0xFFF)).toInt = -1048576 ∧
      (immJ (encodeJImm 1048574 ||| 0xFFF)).toInt = 1048574) ∧
    ((0x000FFFFF : Word) &&& 0xFFF00000 = 0 ∧ (immI (encodeIImm (-2048) ||| 0xFFFFF)).toInt = -2048 ∧
      (immI (encodeIImm 2047 ||| 0xFFFFF)).toInt = 2047) ∧
    ((immS (encodeSImm (-2048) ||| 0x01FFF07F)).toInt = -2048 ∧ (immS (encodeSImm 2047 ||| 0x01FFF07F)).toInt = 2047) := by
  decide

theorem witness_DecodeOfEncodeIsTheInstruction :
    (Instr.bgeu 31 30 (-4096)).wellFormed = true ∧ (Instr.jal 31 1048574).wellFormed = true ∧
      (Instr.sw 31 30 (-2048)).wellFormed = true ∧ (Instr.lui 31 0xFFFFF000).wellFormed = true ∧
      (Instr.srai 31 30 31).wellFormed = true ∧ (Instr.ecall 31 30).wellFormed = true := by
  decide

theorem witness_EncodeOfDecodeIsTheWord :
    decodeWord 0xFFF0FFF3 = .unknownFunct 0xFFF0FFF3 ∧ decodeWord 0x001F8F73 = .instr (.ebreak 30 31) := by
  decide

theorem witness_OpcodeTableRowsSelectTheirInstruction :
    (⟨"srai", 0x40005013, 0xFE00707F⟩ : OpcodeRow) ∈ opcodeTable ∧ (0x41F0D113 : Word) &&& 0xFE00707F = 0x40005013 ∧
      (⟨"ebreak", 0x00100073, 0xFFF0707F⟩ : OpcodeRow) ∈ opcodeTable := by
  decide

/-- Each of the nine cases of the list is met, and a word of none. -/
theorem witness_UnknownFunctExactlyOnTheList :
    UnknownFunctCase 0b0110011 0 0b0000010 0 ∧ UnknownFunctCase 0b0110011 0b001 0b0100000 0 ∧
      UnknownFunctCase 0b0010011 0b001 0b0100000 0 ∧ UnknownFunctCase 0b0010011 0b101 0b1111111 0 ∧
      UnknownFunctCase 0b0000011 0b011 0 0 ∧ UnknownFunctCase 0b0100011 0b011 0 0 ∧ UnknownFunctCase 0b1100011 0b010 0 0 ∧
      UnknownFunctCase 0b1100111 0b001 0 0 ∧ UnknownFunctCase 0b1110011 0 0 0x002 ∧ ¬ UnknownFunctCase 0b0110011 0 0 0 := by
  simp [UnknownFunctCase]

theorem witness_UnknownOpcodeExactlyOutsideTheTenGroups :
    (0x00000000 : Word).extractLsb' 0 7 ∉ opcodes ∧ (0x00000033 : Word).extractLsb' 0 7 ∈ opcodes := by
  decide

theorem witness_InterpretHasNoCompressedTest :
    (0x00000001 : Word).extractLsb' 0 2 ≠ 0b11 ∧ interpret 0x0000007F State.reset = .raised (.unknownOpcode 0x7F) := by
  decide

/-- Each clause at the last address that fits and the first that does not. -/
theorem witness_LoadAccessorsAssembleLittleEndian :
    (8191 : Word).toNat + 1 ≤ State.reset.mem.size ∧ State.reset.mem.size < (8192 : Word).toNat + 1 ∧
      (8190 : Word).toNat + 2 ≤ State.reset.mem.size ∧ State.reset.mem.size < (8191 : Word).toNat + 2 ∧
      (8188 : Word).toNat + 4 ≤ State.reset.mem.size ∧ State.reset.mem.size < (8189 : Word).toNat + 4 ∧
      State.reset.mem.size < (0xFFFFFFFE : Word).toNat + 4 := by
  decide

/-- A canonical memory with a listed byte, and the same boundary addresses. -/
theorem witness_StoreAccessorsWriteExactlyTheirBytes :
    (st 0 [] [(8191, 7)]).mem.wf = true ∧ (8191 : Word).toNat + 1 ≤ (st 0 [] [(8191, 7)]).mem.size ∧
      (8190 : Word).toNat + 2 ≤ (st 0 [] [(8191, 7)]).mem.size ∧ (8188 : Word).toNat + 4 ≤ (st 0 [] [(8191, 7)]).mem.size ∧
      (st 0 [] [(8191, 7)]).mem.size < (8192 : Word).toNat + 1 ∧ (st 0 [] [(8191, 7)]).mem.size < (8191 : Word).toNat + 2 ∧
      (st 0 [] [(8191, 7)]).mem.size < (8189 : Word).toNat + 4 := by
  decide

theorem witness_StoreThenLoadReturnsTheValue :
    (st 0 [] [(8191, 7)]).mem.wf = true ∧
      ((st 0 [] [(8191, 7)]).mem.storeWord 8188 0xDEADBEEF).toOption.isSome = true ∧
      ((st 0 [] [(8191, 7)]).mem.storeHalf 8188 0xBEEF).toOption.isSome = true ∧
      ((st 0 [] [(8191, 7)]).mem.storeHalf 8188 0xBEEF).toOption.bind (fun m => (m.storeHalf (8188 + 2) 0xDEAD).toOption.bind
        fun m' => (m'.loadWord 8188).toOption) = some 0xDEADBEEF ∧ (8188 : Word).toNat + 4 ≤ 8192 ∧
      ((st 0 [] [(8191, 7)]).mem.storeByte 8191 0).toOption.isSome = true := by
  decide

/-- The last word of memory. -/
theorem witness_StepRunsTheDecodedInstruction :
    (placeWord (st 8188 [] []) 0x002081B3).pc.toNat + 4 ≤ (placeWord (st 8188 [] []) 0x002081B3).mem.size ∧
      decodeBytes (bytesFrom (placeWord (st 8188 [] []) 0x002081B3) 8188 4) = .word (.instr (.add 3 1 2)) [] := by
  decide

/-- Each branch of the fetch at its boundary pc. -/
theorem witness_StepFollowsTheFetchLoop :
    (st 8191 [] []).mem.size < (st 8191 [] []).pc.toNat + 2 ∧
      (¬ (st 8190 [] []).mem.size < (st 8190 [] []).pc.toNat + 2 ∧ half (st 8190 [] []).mem 8190 % 4 ≠ 3) ∧
      (half (st 8190 [] [(8190, 3)]).mem 8190 % 4 = 3 ∧ (st 8190 [] [(8190, 3)]).mem.size < 8190 + 4) ∧
      (half (st 8188 [] [(8188, 0x13)]).mem 8188 % 4 = 3 ∧ ¬ (st 8188 [] [(8188, 0x13)]).mem.size < 8188 + 4 ∧
        wordAtPc (st 8188 [] [(8188, 0x13)]) = 0x13) := by
  decide

/-- One word of each kind: a jump, a taken and an untaken branch, a load, an instruction that is not executed. -/
theorem witness_RedirectedFlagIsFixedByTheInstruction :
    (interpret 0x0000006F State.reset).flag = some true ∧ (interpret 0x00000063 State.reset).flag = some true ∧
      (interpret 0x00001063 State.reset).flag = some false ∧ (interpret 0x00002083 State.reset).flag = some false ∧
      (interpret 0x00000073 State.reset).flag = none := by
  decide

theorem witness_InstructionChangesOnlyItsDestination :
    ∃ t, exec (.sw 1 2 4) (st 0 [(1, 8184), (2, 9)] []) = .next t ∧ t.mem.byteAt 8188 = 9 ∧
      StoredAt (st 0 [(1, 8184), (2, 9)] []) (.sw 1 2 4) 8191 ∧ ¬ StoredAt (st 0 [(1, 8184), (2, 9)] []) (.sw 1 2 4) 8192 :=
  ⟨_, rfl, by unfold StoredAt; decide⟩

theorem witness_InstructionsRaiseExactlyTheirConditions :
    notExecuted (.remu 3 1 2) = some (.m 0x0220F1B3) ∧
      (st 0 [(1, 8189)] []).mem.size < (access (st 0 [(1, 8189)] []) (.lw 3 1 0)).1.toNat + 4 ∧
      ¬ (st 0 [(1, 8188)] []).mem.size < (access (st 0 [(1, 8188)] []) (.lw 3 1 0)).1.toNat + 4 := by
  decide

theorem witness_StepKeepsTheInvariant :
    (placeWord (st 0 [(2, 9)] []) 0x00202823).inv = true ∧
      (after (placeWord (st 0 [(2, 9)] []) 0x00202823)).isSome = true := by
  decide

theorem witness_LaunchedRunsKeepInvariantAndCapacity :
    ∃ s t, launch { memSize := 4, image := bytesOfWord 0x0000006F } = some s ∧ Reaches 1 s t :=
  ⟨_, _, rfl, .succ rfl (.zero _)⟩

theorem witness_LaunchBuildsTheLaunchState :
    ∃ s, launch { memSize := 6, image := bytesOfWord 0x13, initMem := [(2, 9), (5, 7), (4, 8), (5, 6), (6, 3)], resetPc := 4 } =
        some s ∧
      s.mem.byteAt 2 = 0 ∧ s.mem.byteAt 4 = 8 ∧ s.mem.byteAt 5 = 6 ∧ s.mem.byteAt 6 = Config.unlistedByte ∧ s.pc = 4 :=
  ⟨_, rfl, by decide⟩

theorem witness_LaunchBuildsTheLaunchState_lastPair :
    (bytesOfWord 0x13).length ≤ 5 ∧ 5 < 6 ∧
      ([(2, 9), (5, 7), (4, 8), (5, 6), (6, 3)] : List Host.Cell) = [(2, 9), (5, 7), (4, 8)] ++ (5, 6) :: [(6, 3)] ∧
      ∀ b' : Byte, (5, b') ∉ ([(6, 3)] : List Host.Cell) :=
  ⟨by decide, by decide, rfl, by simp⟩

theorem witness_LaunchBuildsTheLaunchState_unnamed :
    ∃ s, launch { memSize := 6, image := bytesOfWord 0x13, initMem := [(4, 8)] } = some s ∧
      (∀ b : Byte, (5, b) ∉ ([(4, 8)] : List Host.Cell)) ∧ s.mem.byteAt 5 = Config.unlistedByte :=
  ⟨_, rfl, by simp, by decide⟩

theorem witness_RunEndsAtTheFirstRaisedCondition :
    run 1 State.reset = .raised (.unimplemented (.compressed 0)) State.reset 0 ∧ (0 < 1) ∧
      raised State.reset = some (.unimplemented (.compressed 0)) := by
  decide

theorem witness_StoreIsSeenByTheNextFetch :
    (st 8184 [(1, 8188), (2, 0x00108093)] []).mem.wf = true ∧
      (st 8184 [(1, 8188), (2, 0x00108093)] []).readReg 1 + 0 = (st 8184 [(1, 8188), (2, 0x00108093)] []).pc + 4 ∧
      (st 8184 [(1, 8188), (2, 0x00108093)] []).pc.toNat + 8 ≤ (st 8184 [(1, 8188), (2, 0x00108093)] []).mem.size ∧
      decodeWord 0x00108093 = .instr (.addi 1 1 1) := by
  decide

/-- The instruction statements hold for every state and operand; their inner premise, that pc + 4 does not wrap, at its last
value, and words that match and fail an encoding. -/
theorem witness_instruction_statements :
    (0xFFFFFFFB : Word).toNat + 4 < 2 ^ 32 ∧ ¬ (0xFFFFFFFC : Word).toNat + 4 < 2 ^ 32 ∧
      (0x01FF8FB3 : Word) &&& 0xFE00707F = 0x00000033 ∧ (0x41FF8FB3 : Word) &&& 0xFE00707F = 0x40000033 ∧
      (0xFFFF8F93 : Word) &&& 0x0000707F = 0x00000013 ∧ (0xFFFFFFEF : Word) &&& 0x0000007F = 0x0000006F := by
  decide

/-- A byte load at 8191 fits, at 8192 does not. -/
theorem witness_ByteLoadsExtend :
    ((st 0 [(1, 8191)] []).readReg 1 + 0).toNat + 1 ≤ (st 0 [(1, 8191)] []).mem.size ∧
      (st 0 [(1, 8191)] []).mem.size < ((st 0 [(1, 8191)] []).readReg 1 + 1).toNat + 1 := by
  decide

/-- A half-word at 8190 and a word at 8188 fit, one byte higher they do not; a span never wraps. -/
theorem witness_HalfAndWordLoadsExtend :
    ((st 0 [(1, 8188)] []).readReg 1 + 2).toNat + 2 ≤ (st 0 [(1, 8188)] []).mem.size ∧
      (st 0 [(1, 8188)] []).mem.size < ((st 0 [(1, 8188)] []).readReg 1 + 3).toNat + 2 ∧
      ((st 0 [(1, 8188)] []).readReg 1 + 0).toNat + 4 ≤ (st 0 [(1, 8188)] []).mem.size ∧
      (st 0 [(1, 8188)] []).mem.size < ((st 0 [(1, 8188)] []).readReg 1 + 1).toNat + 4 ∧
      (st 0 [] []).mem.size < ((st 0 [] []).readReg 0 + (-1)).toNat + 4 := by
  decide

theorem witness_StoresWriteOnlyTheirBytes :
    (st 0 [(1, 8188)] [(8191, 7)]).mem.wf = true ∧
      ((st 0 [(1, 8188)] []).readReg 1 + 3).toNat + 1 ≤ 8192 ∧ 8192 < ((st 0 [(1, 8188)] []).readReg 1 + 4).toNat + 1 ∧
      ((st 0 [(1, 8188)] []).readReg 1 + 2).toNat + 2 ≤ 8192 ∧ 8192 < ((st 0 [(1, 8188)] []).readReg 1 + 3).toNat + 2 ∧
      ((st 0 [(1, 8188)] []).readReg 1 + 0).toNat + 4 ≤ 8192 ∧ 8192 < ((st 0 [(1, 8188)] []).readReg 1 + 1).toNat + 4 := by
  decide

theorem witness_EqualityBranchesRedirect :
    (st 0 [(1, 5), (2, 5)] []).readReg 1 = (st 0 [(1, 5), (2, 5)] []).readReg 2 ∧
      (st 0 [(1, 5), (2, 6)] []).readReg 1 ≠ (st 0 [(1, 5), (2, 6)] []).readReg 2 := by
  decide

/-- The signed and the unsigned order disagree on these operands, so each of the four conditions is met and unmet. -/
theorem witness_OrderedBranchesRedirect :
    ((st 0 [(1, 0x80000000), (2, 0)] []).readReg 1).toInt < ((st 0 [(1, 0x80000000), (2, 0)] []).readReg 2).toInt ∧
      ((st 0 [(1, 0x80000000), (2, 0)] []).readReg 1).toNat ≥ ((st 0 [(1, 0x80000000), (2, 0)] []).readReg 2).toNat ∧
      ((st 0 [(1, 0), (2, 0x80000000)] []).readReg 1).toInt ≥ ((st 0 [(1, 0), (2, 0x80000000)] []).readReg 2).toInt ∧
      ((st 0 [(1, 0), (2, 0x80000000)] []).readReg 1).toNat < ((st 0 [(1, 0), (2, 0x80000000)] []).readReg 2).toNat := by
  decide

theorem witness_EcallEbreakRaiseUnimplemented :
    (0x00000073 : Word) &&& 0xFFF0707F = 0x00000073 ∧ (0x000FFFF3 : Word) &&& 0xFFF0707F ≠ 0x00000073 ∧
      (0x000F8FF3 : Word) &&& 0xFFF0707F = 0x00000073 ∧ (0x001F8FF3 : Word) &&& 0xFFF0707F = 0x00100073 := by
  decide

theorem witness_MExtensionRaisesUnimplemented :
    (0x022081B3 : Word) &&& 0xFE00007F = 0x02000033 ∧ (0x03FFFFB3 : Word) &&& 0xFE00007F = 0x02000033 ∧
      Instr.remu ∈ [Instr.mul, Instr.mulh, Instr.mulhsu, Instr.mulhu, Instr.div, Instr.divu, Instr.rem, Instr.remu] := by
  simp

theorem witness_LuiAddiPairBuildsAnyConstant :
    constPair 5 0xDEADBEEF = [.lui 5 0xDEADC000, .addi 5 5 (-273)] := by
  decide

theorem witness_RegisterPseudoInstructionsDoWhatTheyName :
    (-2048 ≤ (-2048 : Word).toInt ∧ (-2048 : Word).toInt ≤ 2047) ∧
      ¬ (-2048 ≤ (2048 : Word).toInt ∧ (2048 : Word).toInt ≤ 2047) := by
  decide

end Sys2Proof.Tests
end

section
/-! SUPPORT. Laws of the invariant and of the comparisons, which the statements of spec/10_state.md need beyond Laws/. -/

namespace Sys2Proof.Machine

/-! ### The invariant -/

/-- The state after reset meets the invariant: its memory is well-formed (`wf_reset`) and its slot of register 0 holds 0. -/
theorem State.inv_reset : State.reset.inv = true := by
  rw [State.inv, wf_reset]
  rfl

/-- The invariant does not speak of pc. -/
@[simp] theorem State.inv_setPc (s : State) (t : Word) : (s.setPc t).inv = s.inv := rfl

/-- A register write touches neither the memory nor the stored slot of register 0 (R12). -/
@[simp] theorem State.inv_writeReg (s : State) (r : RegIdx) (v : Word) : (s.writeReg r v).inv = s.inv := by
  simp [State.inv]

/-- A run of byte writes keeps the memory well-formed and touches no register. -/
theorem State.inv_setMem_setBytes {s : State} (h : s.inv = true) (a : Nat) (bs : List Byte) :
    (s.setMem (s.mem.setBytes a bs)).inv = true := by
  simp only [State.inv, Bool.and_eq_true] at h ⊢
  exact ⟨Memory.wf_setBytes h.1 a bs, h.2⟩

/-- Whatever a handler does to a state with the invariant, the state the PC mux hands on has it. -/
theorem HandlerEffect.keeps_inv {s t : State} {o : Interp} (he : HandlerEffect s o) (hs : s.inv = true)
    (h : pcMux o = .next t) : t.inv = true := by
  cases he with
  | bytes a bs => cases h; exact State.inv_setMem_setBytes hs a bs
  | condition c => cases h
  | _ => cases h; simpa using hs

/-- A completed instruction keeps the invariant. -/
theorem exec_keeps_inv {i : Instr} {s t : State} (hs : s.inv = true) (h : exec i s = .next t) : t.inv = true := by
  rw [exec_eq_pcMux_handle] at h
  exact (handle_effect i s).keeps_inv hs h

/-! ### The comparisons -/

theorem ltSigned_iff (a b : Word) : ltSigned a b = true ↔ a.toInt < b.toInt := decide_eq_true_iff

theorem not_ltSigned_iff (a b : Word) : (!ltSigned a b) = true ↔ a.toInt ≥ b.toInt := by
  simp [ltSigned]

theorem ltUnsigned_iff (a b : Word) : ltUnsigned a b = true ↔ a.toNat < b.toNat := decide_eq_true_iff

theorem not_ltUnsigned_iff (a b : Word) : (!ltUnsigned a b) = true ↔ a.toNat ≥ b.toNat := by
  simp [ltUnsigned]

end Sys2Proof.Machine
end

section
/-! PROOFS. The register file, the state after reset, the invariant of every step, and what an instruction leaves unchanged
(spec/10_state.md). -/

namespace Sys2Proof.Proofs

open Sys2Proof.Machine Sys2Proof.Claims

/-- Settles O20: a completed step is a completed instruction, whose effect on the state is one of the six of
`HandlerEffect`, and each of them keeps the invariant. -/
theorem stepKeepsTheInvariant : Obligations.StepKeepsTheInvariant := by
  intro s t hs h
  obtain ⟨_, _, _, _, hexec⟩ := step_next h
  exact exec_keeps_inv hs hexec

/-- Settles O1: the read-after-write law of the register file, at register 0 and elsewhere. -/
theorem registerZeroReadsZeroAndOthersReadBack : Obligations.RegisterZeroReadsZeroAndOthersReadBack := by
  intro s r q v
  refine ⟨State.readReg_zero _, State.readReg_zero _, State.writeReg_zero s v, fun hq => ?_⟩
  exact (State.readReg_writeReg s r v q).trans (if_neg hq)

/-- The default launch lays no cell and copies no byte, so its memory is empty, and its registers are 32 zeros. -/
theorem launch_default : launch {} = some State.reset := by decide

/-- Settles O21: both parts are closed facts about the reset state. -/
theorem resetMeetsTheInvariant : Obligations.ResetMeetsTheInvariant :=
  ⟨State.inv_reset, launch_default⟩

/-! ### What an instruction leaves unchanged -/

/-- From `s` to `t` only this changed: pc, to a value `next` admits; the register `rd`, if there is one; the bytes at the
addresses of `stored`. -/
def OnlyChanges (s t : State) (next : Word → Prop) (rd : Option RegIdx) (stored : Nat → Prop) : Prop :=
  next t.pc ∧ (∀ r, rd ≠ some r → t.readReg r = s.readReg r) ∧
    t.mem.size = s.mem.size ∧ ∀ a, ¬ stored a → t.mem.byteAt a = s.mem.byteAt a

section
variable {s t : State} {rd : RegIdx} {stored : Nat → Prop}

/-- Writing `rd` and setting pc changes only the two. -/
theorem writeReg_setPc_onlyChanges (v p : Word) :
    OnlyChanges s ((s.writeReg rd v).setPc p) (· = p) (some rd) stored := by
  refine ⟨rfl, fun r hr => ?_, by simp, fun a _ => by simp⟩
  have hne : r ≠ rd := fun e => hr (congrArg some e.symm)
  rw [State.readReg_setPc, State.readReg_writeReg_of_ne s hne]

/-- An ALU or upper-immediate instruction changes rd and advances pc (R93, R105). -/
theorem writeBack_onlyChanges {v : Word} (h : pcMux (writeBack s rd v) = .next t) :
    OnlyChanges s t (· = s.pc + 4) (some rd) stored := by
  cases h
  rw [State.writeReg_pc]
  exact writeReg_setPc_onlyChanges v (s.pc + 4)

/-- A load that completes changes rd and advances pc (R116). -/
theorem load_onlyChanges {n : Nat} {loadFrom : Memory → Word → Except Fault (BitVec n)} {extend : BitVec n → Word}
    {rs1 : RegIdx} {imm : Word} (h : pcMux (load loadFrom extend rd rs1 imm s) = .next t) :
    OnlyChanges s t (· = s.pc + 4) (some rd) stored := by
  rcases load_cases loadFrom extend rd rs1 imm s with ⟨v, _, hl⟩ | ⟨c, _, hl⟩ <;> rw [hl] at h
  · exact writeBack_onlyChanges h
  · cases h

/-- A jump changes rd and sets pc to its target (R136, R137). -/
theorem jump_onlyChanges {target : Word} (h : pcMux (jump s rd target) = .next t) :
    OnlyChanges s t (· = target) (some rd) stored := by
  cases h
  exact writeReg_setPc_onlyChanges (s.pc + 4) target

/-- A branch on `cond` changes only pc: to its target when taken, else to the next word (R128). -/
theorem branch_onlyChanges {cond : Bool} {P : Prop} {imm : Word} (h : pcMux (branch cond imm s) = .next t)
    (hP : cond = true ↔ P) :
    OnlyChanges s t (fun p => (P → p = s.pc + imm) ∧ (¬ P → p = s.pc + 4)) none stored := by
  rcases branch_cases cond imm s with ⟨hc, hb⟩ | ⟨hc, hb⟩ <;> rw [hb] at h <;> cases h
  · have taken : P := hP.mp hc
    exact ⟨⟨fun _ => rfl, fun hn => absurd taken hn⟩, fun _ _ => rfl, rfl, fun _ _ => rfl⟩
  · have untaken : ¬ P := fun hp => by simp [hP.mpr hp] at hc
    exact ⟨⟨fun hp => absurd hp untaken, fun _ => rfl⟩, fun _ _ => rfl, rfl, fun _ _ => rfl⟩

/-- A store of `n` bytes that completes changes the bytes of its span and advances pc (R123). -/
theorem store_onlyChanges {i : Instr} {storeTo : Memory → Word → Word → Except Fault Memory} {n : Nat}
    {bytes : Word → List Byte} {rs1 rs2 : RegIdx} {imm : Word} (h : pcMux (store storeTo rs1 rs2 imm s) = .next t)
    (hbytes : ∀ m a v, storeTo m a v = m.checked a n (m.setBytes a.toNat (bytes v))) (hlen : ∀ v, (bytes v).length = n)
    (hstore : isStore i = true) (hspan : access s i = (effAddr rs1 imm s, n)) :
    OnlyChanges s t (· = s.pc + 4) none (StoredAt s i) := by
  rcases store_cases storeTo rs1 rs2 imm s with ⟨m, hm, hs⟩ | ⟨c, _, hs⟩ <;> rw [hs] at h <;> cases h
  rw [hbytes] at hm
  obtain ⟨_, rfl⟩ := Memory.checked_eq_ok hm
  refine ⟨rfl, fun _ _ => rfl, Memory.setBytes_size _ _ _, fun a ha => ?_⟩
  have outside : a < (effAddr rs1 imm s).toNat ∨ (effAddr rs1 imm s).toNat + (bytes (s.readReg rs2)).length ≤ a := by
    simp only [StoredAt, hstore, hspan, true_and] at ha
    rw [hlen]
    omega
  exact Memory.byteAt_setBytes_of_outside _ _ _ outside

end

/-- Every completed instruction changes only its pc, its destination and the bytes it stores to: the form of its handler
says which of the five kinds it is, and the ten that are not executed never complete. -/
theorem exec_onlyChanges {i : Instr} {s t : State} (h : exec i s = .next t) :
    OnlyChanges s t (NextPc s i) (destination i) (StoredAt s i) := by
  rw [exec_eq_pcMux_handle] at h
  cases i with
  | lb | lh | lw | lbu | lhu => exact load_onlyChanges h
  | sb | sh | sw => exact store_onlyChanges h (fun _ _ _ => rfl) (fun _ => rfl) rfl rfl
  | beq | bne => exact branch_onlyChanges h decide_eq_true_iff
  | blt => exact branch_onlyChanges h (ltSigned_iff _ _)
  | bge => exact branch_onlyChanges h (not_ltSigned_iff _ _)
  | bltu => exact branch_onlyChanges h (ltUnsigned_iff _ _)
  | bgeu => exact branch_onlyChanges h (not_ltUnsigned_iff _ _)
  | jal | jalr => exact jump_onlyChanges h
  | ecall | ebreak | mul | mulh | mulhsu | mulhu | div | divu | rem | remu => cases h
  | _ => exact writeBack_onlyChanges h

/-- Settles O18: `OnlyChanges` at the instruction's own next pc, destination and stored bytes is the statement. -/
theorem instructionChangesOnlyItsDestination : Obligations.InstructionChangesOnlyItsDestination :=
  fun _ _ _ h => exec_onlyChanges h

end Sys2Proof.Proofs
end

section
/-! SUPPORT. Laws of the little-endian accessors, of words that decode, and of launches and runs, which the statements of
spec/20_memory.md need beyond Laws/. -/

namespace Sys2Proof.Machine

/-! ### Little-endian spans -/

/-- The low `n` bytes of a word in ascending address order (R27). -/
def leBytes (n : Nat) (v : Word) : List Byte := (List.range n).map fun k => v.extractLsb' (8 * k) 8

@[simp] theorem leBytes_length (n : Nat) (v : Word) : (leBytes n v).length = n := by simp [leBytes]

theorem leBytes_getElem {n : Nat} {v : Word} {k : Nat} (hk : k < (leBytes n v).length) :
    (leBytes n v)[k] = v.extractLsb' (8 * k) 8 := by simp [leBytes]

/-- `store_byte` is a checked write of one byte (R34). -/
theorem Memory.storeByte_eq (m : Memory) (addr v : Word) :
    m.storeByte addr v = m.checked addr 1 (m.setBytes addr.toNat (leBytes 1 v)) := rfl

/-- `store_half` is a checked write of two bytes (R35). -/
theorem Memory.storeHalf_eq (m : Memory) (addr v : Word) :
    m.storeHalf addr v = m.checked addr 2 (m.setBytes addr.toNat (leBytes 2 v)) := rfl

/-- `store_word` is a checked write of four bytes (R36). -/
theorem Memory.storeWord_eq (m : Memory) (addr v : Word) :
    m.storeWord addr v = m.checked addr 4 (m.setBytes addr.toNat (leBytes 4 v)) := rfl

/-- The `n` bytes of memory from address `a` up are the low `n` bytes of `v`, lowest first. -/
def Memory.Holds (m : Memory) (a n : Nat) (v : Word) : Prop :=
  ∀ k, k < n → m.byteAt (a + k) = v.extractLsb' (8 * k) 8

/-- `m'` is `m` with the low `n` bytes of `v` written from address `a` up, and nothing else changed. -/
structure Memory.Wrote (m m' : Memory) (a n : Nat) (v : Word) : Prop where
  size : m'.size = m.size
  holds : m'.Holds a n v
  outside : ∀ b, b < a ∨ a + n ≤ b → m'.byteAt b = m.byteAt b

section
variable {m m' : Memory} {addr v : Word}

/-- Writing a word's low bytes where they fit writes exactly those. -/
theorem Memory.wrote_setBytes (h : m.wf = true) {a n : Nat} (fits : a + n ≤ m.size) (v : Word) :
    m.Wrote (m.setBytes a (leBytes n v)) a n v where
  size := Memory.setBytes_size _ _ _
  holds k hk := by
    rw [Memory.byteAt_setBytes_inside h a _ (by simpa using fits) (by simpa using hk), leBytes_getElem]
  outside b hb := Memory.byteAt_setBytes_of_outside _ _ _ (by simpa using hb)

/-- A checked write that completes had a span that fits, and has written it. -/
theorem Memory.wrote_of_checked (h : m.wf = true) {n : Nat}
    (hs : m.checked addr n (m.setBytes addr.toNat (leBytes n v)) = .ok m') :
    addr.toNat + n ≤ m.size ∧ m.Wrote m' addr.toNat n v := by
  obtain ⟨fits, rfl⟩ := Memory.checked_eq_ok hs
  exact ⟨fits, Memory.wrote_setBytes h fits v⟩

theorem Memory.size_le_of_wf (h : m.wf = true) : m.size ≤ 2 ^ 32 := by
  simp only [Memory.wf, Bool.and_eq_true, decide_eq_true_eq] at h
  exact h.1

/-- Inside a well-formed memory an address sum does not wrap. -/
theorem Memory.toNat_addr_add (h : m.wf = true) {k : Nat} (hk : addr.toNat + k < m.size) :
    (addr + BitVec.ofNat 32 k).toNat = addr.toNat + k := by
  have hsize := Memory.size_le_of_wf h
  rw [BitVec.toNat_add, BitVec.toNat_ofNat, Nat.add_mod_mod, Nat.mod_eq_of_lt (by omega)]

/-- Four bytes that are those of a word assemble to the word (R33). -/
theorem Memory.Holds.wordOfBytes_eq {a : Nat} (h : m.Holds a 4 v) :
    wordOfBytes (m.byteAt a) (m.byteAt (a + 1)) (m.byteAt (a + 2)) (m.byteAt (a + 3)) = v := by
  have h0 : m.byteAt a = extractBits v 7 0 := h 0 (by omega)
  rw [h0, h 1 (by omega), h 2 (by omega), h 3 (by omega)]
  exact wordOfBytes_extract v

/-- Two bytes that are the low ones of a word assemble to its low half (R32). -/
theorem Memory.Holds.halfOfBytes_eq {a : Nat} (h : m.Holds a 2 v) :
    halfOfBytes (m.byteAt a) (m.byteAt (a + 1)) = v.extractLsb' 0 16 := by
  have h0 : m.byteAt a = extractBits v 7 0 := h 0 (by omega)
  rw [h0, h 1 (by omega)]
  exact halfOfBytes_extract v

theorem Memory.Holds.mono {a n n' : Nat} (h : m.Holds a n v) (hn : n' ≤ n) : m.Holds a n' v :=
  fun k hk => h k (by omega)

theorem Memory.Holds.loadWord (h : m.Holds addr.toNat 4 v) (fits : addr.toNat + 4 ≤ m.size) :
    m.loadWord addr = .ok v :=
  (Memory.checked_ok fits _).trans (congrArg _ h.wordOfBytes_eq)

theorem Memory.Holds.loadHalf (h : m.Holds addr.toNat 2 v) (fits : addr.toNat + 2 ≤ m.size) :
    m.loadHalf addr = .ok (v.extractLsb' 0 16) :=
  (Memory.checked_ok fits _).trans (congrArg _ h.halfOfBytes_eq)

theorem Memory.Holds.loadByte {n : Nat} (h : m.Holds addr.toNat n v) (fits : addr.toNat + n ≤ m.size) (hn : 0 < n) :
    m.loadByte addr = .ok (v.extractLsb' 0 8) :=
  (Memory.checked_ok (by omega) _).trans (congrArg _ (h 0 hn))

/-- A byte load inside the span reads the byte of the word there (R31). -/
theorem Memory.Holds.loadByte_add {n k : Nat} (h : m.Holds addr.toNat n v) (hwf : m.wf = true)
    (fits : addr.toNat + n ≤ m.size) (hk : k < n) :
    m.loadByte (addr + BitVec.ofNat 32 k) = .ok (v.extractLsb' (8 * k) 8) := by
  have haddr := Memory.toNat_addr_add hwf (addr := addr) (k := k) (by omega)
  refine (Memory.checked_ok (by omega) _).trans (congrArg _ ?_)
  rw [haddr]
  exact h k hk

/-- A half-word written above another leaves the word of the two (R29). -/
theorem Memory.Wrote.holds_append {a : Nat} {u : Word} (hlow : m.Holds a 2 v) (hhigh : m.Wrote m' (a + 2) 2 u) :
    m'.Holds a 4 (u.extractLsb' 0 16 ++ v.extractLsb' 0 16) := by
  intro k hk
  by_cases hk2 : k < 2
  · rw [hhigh.outside (a + k) (by omega), hlow k hk2, BitVec.extractLsb'_append_eq_of_add_le (by omega),
      BitVec.extractLsb'_extractLsb'_of_le (by omega)]
  · obtain ⟨j, rfl⟩ : ∃ j, k = 2 + j := ⟨k - 2, by omega⟩
    rw [← Nat.add_assoc, hhigh.holds j (by omega), BitVec.extractLsb'_append_eq_of_le (by omega),
      BitVec.extractLsb'_extractLsb'_of_le (by omega), show 8 * (2 + j) - 16 = 8 * j by omega]

end

/-! ### Words that decode are not compressed -/

/-- A word whose opcode is none of the ten is unknown (R73). -/
theorem decodeWord_of_opcode_notMem {w : Word} (h : opcodeOf w ∉ Claims.opcodes) : decodeWord w = .unknownOpcode w := by
  unfold decodeWord
  split
  case h_11 => rfl
  all_goals
    next hop =>
      rw [hop] at h
      exact absurd (by decide) h

/-- A word that decodes to an instruction has one of the ten opcodes (R61). -/
theorem opcode_mem_of_decodeWord {w : Word} {i : Instr} (h : decodeWord w = .instr i) : opcodeOf w ∈ Claims.opcodes := by
  by_contra hop
  rw [decodeWord_of_opcode_notMem hop] at h
  cases h

/-- The low half of a word that decodes to an instruction does not look compressed: the ten opcodes all end in 0b11 (R83). -/
theorem isCompressed_eq_false_of_decodeWord {w : Word} {i : Instr} (h : decodeWord w = .instr i) :
    isCompressed (w.extractLsb' 0 16) = false := by
  have ends : ∀ op ∈ Claims.opcodes, op.extractLsb' 0 2 = 0b11#2 := by decide
  have low : (w.extractLsb' 0 16).extractLsb 1 0 = (opcodeOf w).extractLsb' 0 2 := by
    unfold opcodeOf extractBits
    ext k hk
    interval_cases k <;> simp
  simp only [isCompressed, low, ends _ (opcode_mem_of_decodeWord h), bne_self_eq_false]

/-- Where the four bytes at pc are a word that decodes, the step is exec of its instruction (R85). -/
theorem step_eq_exec_of_holds {s : State} {w : Word} {i : Instr} (hw : s.mem.Holds s.pc.toNat 4 w)
    (fits : s.pc.toNat + 4 ≤ s.mem.size) (hi : decodeWord w = .instr i) : step s = exec i s := by
  have hhalf := (hw.mono (by decide : 2 ≤ 4)).halfOfBytes_eq
  have hfetch : fetch s = .ok w := by
    rw [fetch_of_fits fits (hhalf ▸ isCompressed_eq_false_of_decodeWord hi), hw.wordOfBytes_eq]
  simp only [step, hfetch, hi]

/-! ### Launches and runs -/

/-- What a launch that succeeds has built (R176, D20). -/
theorem launch_eq_some {c : Config} {s : State} (h : launch c = some s) :
    c.memSize ≤ 2 ^ 32 ∧ c.image.length ≤ c.memSize ∧ s.regs = (#v[(0 : Word)] ++ c.initX : Vector Word 32) ∧
      s.pc = c.resetPc ∧ s.mem = (layCells { size := c.memSize, cells := [] } c.initMem).setBytes 0 c.image := by
  unfold launch at h
  split at h
  · next hlimits => cases h; exact ⟨hlimits.1, hlimits.2, rfl, rfl, rfl⟩
  · cases h

/-- A launch state meets the invariant: byte writes into an empty memory keep it well-formed, and slot 0 is 0. -/
theorem inv_of_launch {c : Config} {s : State} (h : launch c = some s) : s.inv = true := by
  obtain ⟨hsize, -, hregs, -, hmem⟩ := launch_eq_some h
  have hempty : Memory.wf { size := c.memSize, cells := [] } = true := by
    rw [Memory.wf, decide_eq_true hsize]
    rfl
  have hzero : s.regs[0] = 0 := by rw [hregs]; exact Vector.getElem_append_left (by decide)
  simp only [State.inv, hmem, Memory.wf_setBytes (wf_layCells hempty _), hzero, beq_self_eq_true, Bool.and_self]

/-- A launch state has the capacity of the construction (R26). -/
theorem size_of_launch {c : Config} {s : State} (h : launch c = some s) : s.mem.size = c.memSize := by
  obtain ⟨-, -, -, -, hmem⟩ := launch_eq_some h
  rw [hmem, Memory.setBytes_size, layCells_size]

/-- What every completed step keeps, every run keeps. -/
theorem Reaches.keeps {P : State → Prop} (hstep : ∀ {s t}, step s = .next t → P s → P t) {n : Nat} {s t : State}
    (hr : Reaches n s t) (hs : P s) : P t := by
  induction hr with
  | zero => exact hs
  | succ h _ ih => exact ih (hstep h hs)

end Sys2Proof.Machine
end

section
/-! PROOFS. The memory accessors, the capacity along a run, and stores into the instruction stream (spec/20_memory.md). -/

namespace Sys2Proof.Proofs

open Sys2Proof.Machine Sys2Proof.Claims

/-- Settles O12: each load is a checked read, whose value as a number is the little-endian sum of its bytes. -/
theorem loadAccessorsAssembleLittleEndian : Obligations.LoadAccessorsAssembleLittleEndian := by
  intro m addr
  refine ⟨fun h => Memory.checked_ok h _, fun h => Memory.checked_error h _,
    fun h => ⟨_, Memory.checked_ok h _, ?_⟩, fun h => Memory.checked_error h _,
    fun h => ⟨_, Memory.checked_ok h _, ?_⟩, fun h => Memory.checked_error h _⟩
  · exact halfOfBytes_toNat _ _
  · rw [wordOfBytes_toNat, quad, half, half, Nat.add_assoc addr.toNat 2 1]
    omega

/-- Settles O13: the three stores are checked writes of 1, 2 and 4 bytes, and one law says what such a write does. -/
theorem storeAccessorsWriteExactlyTheirBytes : Obligations.StoreAccessorsWriteExactlyTheirBytes := by
  intro m addr v hwf store n hmem
  have hstore : store = m.checked addr n (m.setBytes addr.toNat (leBytes n v)) := by
    simp only [List.mem_cons, Prod.mk.injEq, List.not_mem_nil, or_false] at hmem
    rcases hmem with ⟨rfl, rfl⟩ | ⟨rfl, rfl⟩ | ⟨rfl, rfl⟩
    · exact m.storeByte_eq addr v
    · exact m.storeHalf_eq addr v
    · exact m.storeWord_eq addr v
  subst hstore
  refine ⟨fun fits => ?_, fun h => Memory.checked_error h _⟩
  obtain ⟨hsize, hholds, houtside⟩ := Memory.wrote_setBytes hwf fits v
  exact ⟨_, Memory.checked_ok fits _, hsize, hholds, houtside⟩

/-- Settles O14: after a store the memory holds the value's bytes at the address, and a load assembles what is held there. -/
theorem storeThenLoadReturnsTheValue : Obligations.StoreThenLoadReturnsTheValue := by
  intro m m' addr v hwf
  refine ⟨fun hs => ?_, fun hs => ?_, fun hs => ?_⟩
  · have hwf' := Memory.wf_of_store hwf (.inr (.inr hs))
    rw [Memory.storeWord_eq] at hs
    obtain ⟨fits, hw⟩ := Memory.wrote_of_checked hwf hs
    rw [← hw.size] at fits
    have hbyte {k : Nat} := hw.holds.loadByte_add (k := k) hwf' fits
    exact ⟨hw.holds.loadWord fits, hw.holds.loadByte fits (by decide),
      hbyte (by decide), hbyte (by decide), hbyte (by decide)⟩
  · have hwf' := Memory.wf_of_store hwf (.inr (.inl hs))
    rw [Memory.storeHalf_eq] at hs
    obtain ⟨fits, hw⟩ := Memory.wrote_of_checked hwf hs
    refine ⟨hw.holds.loadHalf (hw.size ▸ fits), fun m'' u hs' fits4 => ?_⟩
    rw [Memory.storeHalf_eq] at hs'
    obtain ⟨-, hw'⟩ := Memory.wrote_of_checked hwf' hs'
    have haddr : (addr + 2).toNat = addr.toNat + 2 := Memory.toNat_addr_add (k := 2) hwf (by omega)
    rw [haddr] at hw'
    exact (hw'.holds_append hw.holds).loadWord (by rwa [hw'.size, hw.size])
  · rw [Memory.storeByte_eq] at hs
    obtain ⟨fits, hw⟩ := Memory.wrote_of_checked hwf hs
    exact hw.holds.loadByte (hw.size ▸ fits) (by decide)

/-- A completed step keeps the capacity, because the instruction it completes does (R26). -/
theorem step_keeps_size {s t : State} (h : step s = .next t) : t.mem.size = s.mem.size := by
  obtain ⟨_, _, _, _, hexec⟩ := step_next h
  obtain ⟨-, -, hsize, -⟩ := exec_onlyChanges hexec
  exact hsize

/-- Settles O22: a launch state meets the invariant and has the constructed capacity, and a completed step keeps both. -/
theorem launchedRunsKeepInvariantAndCapacity : Obligations.LaunchedRunsKeepInvariantAndCapacity := by
  intro c s n t hlaunch hreach
  constructor
  · exact hreach.keeps (P := (State.inv · = true)) (fun h hs => stepKeepsTheInvariant _ _ hs h) (inv_of_launch hlaunch)
  · exact hreach.keeps (P := (·.mem.size = c.memSize)) (fun h hs => (step_keeps_size h).trans hs) (size_of_launch hlaunch)

/-- Settles O25: the store writes the word where pc then points, so the next step fetches it and runs its instruction. -/
theorem storeIsSeenByTheNextFetch : Obligations.StoreIsSeenByTheNextFetch := by
  intro s rs1 rs2 imm j hwf hea hfits hpc hdecode
  have hpc4 : (s.pc + 4).toNat = s.pc.toNat + 4 := Memory.toNat_addr_add (k := 4) hwf (by omega)
  have fits : (s.pc + 4).toNat + 4 ≤ s.mem.size := by omega
  have hw := Memory.wrote_setBytes hwf fits (s.readReg rs2)
  have hstore : s.mem.storeWord (effAddr rs1 imm s) (s.readReg rs2) =
      .ok (s.mem.setBytes (s.pc + 4).toNat (leBytes 4 (s.readReg rs2))) := by
    rw [effAddr, hea, Memory.storeWord_eq, Memory.checked_ok fits]
  have hhandle : handle (.sw rs1 rs2 imm) s = _ := store_of_ok hstore
  refine ⟨_, (exec_eq_pcMux_handle _ s).trans (congrArg pcMux hhandle), ?_⟩
  exact step_eq_exec_of_holds hw.holds (by simpa [hw.size] using fits) hdecode

end Sys2Proof.Proofs
end

section
/-! SUPPORT. Laws of the decoder and the encoder, which the statements of spec/30_encoding.md need beyond Laws/: what the
immediates are, the two directions between a word and its fields, and all that dispatch can make of a word. -/

namespace Sys2Proof

open Claims

/-! ### Splits of a word -/

/-- The fields that cover the bits below `top` sum to the word's low `top` bits (R46). -/
theorem splitSum_eq_mod (w : Word) {top : Nat} (htop : top ≤ 32) {cuts : List Nat} (h : Covers top cuts) :
    splitSum w top cuts = w.toNat % 2 ^ top := by
  induction cuts generalizing top with
  | nil =>
    obtain rfl : top = 0 := h
    simp [splitSum, Nat.mod_one]
  | cons lo rest ih =>
    obtain ⟨hlt, hrest⟩ := h
    have range : lo ≤ top - 1 ∧ top - 1 ≤ 31 := by omega
    have split : 2 ^ top = 2 ^ lo * 2 ^ (top - 1 - lo + 1) := by
      rw [← Nat.pow_add]
      congr 1
      omega
    rw [splitSum, dif_pos range, extractBits_toNat, ih (by omega) hrest, split, Nat.mod_mul]
    ring

/-! ### The immediates as concatenations -/

theorem immS_eq_append (w : Word) : immS w = (w.extractLsb' 25 7 ++ w.extractLsb' 7 5).signExtend 32 := by
  ext i hi
  simp only [immS_bits, BitVec.getElem_signExtend, BitVec.getElem_append, BitVec.msb_eq_getLsbD_last,
    BitVec.getLsbD_append]
  interval_cases i <;> simp

theorem immB_eq_append (w : Word) : immB w =
    (w.extractLsb' 31 1 ++ w.extractLsb' 7 1 ++ w.extractLsb' 25 6 ++ w.extractLsb' 8 4 ++ 0#1).signExtend 32 := by
  ext i hi
  simp only [immB_bits, BitVec.getElem_signExtend, BitVec.getElem_append, BitVec.msb_eq_getLsbD_last,
    BitVec.getLsbD_append]
  interval_cases i <;> simp

theorem immU_eq_append (w : Word) : immU w = w.extractLsb' 12 20 ++ 0#12 := by
  ext i hi
  refine (immU_bits w i hi).trans (Eq.trans ?_ (BitVec.getElem_append (x := w.extractLsb' 12 20) (y := 0#12) hi).symm)
  interval_cases i <;> simp

theorem immJ_eq_append (w : Word) : immJ w =
    (w.extractLsb' 31 1 ++ w.extractLsb' 12 8 ++ w.extractLsb' 20 1 ++ w.extractLsb' 21 10 ++ 0#1).signExtend 32 := by
  ext i hi
  simp only [immJ_bits, BitVec.getElem_signExtend, BitVec.getElem_append, BitVec.msb_eq_getLsbD_last,
    BitVec.getLsbD_append]
  interval_cases i <;> simp

/-! ### An immediate is read from its own positions only -/

theorem immI_and_mask (w : Word) : immI (w &&& 0xFFF00000) = immI w := by
  ext i hi
  rw [immI_bits, immI_bits]
  interval_cases i <;> simp

theorem immS_and_mask (w : Word) : immS (w &&& 0xFE000F80) = immS w := by
  ext i hi
  rw [immS_bits, immS_bits]
  interval_cases i <;> simp

theorem immB_and_mask (w : Word) : immB (w &&& 0xFE000F80) = immB w := by
  ext i hi
  rw [immB_bits, immB_bits]
  interval_cases i <;> simp

theorem immJ_and_mask (w : Word) : immJ (w &&& 0xFFFFF000) = immJ w := by
  ext i hi
  rw [immJ_bits, immJ_bits]
  interval_cases i <;> simp

/-- A reader that looks only under a mask does not see bits set outside it. -/
theorem read_or_of_and_mask {imm : Word → Word} {mask : Word} (reads : ∀ w, imm (w &&& mask) = imm w) {other : Word}
    (outside : other &&& mask = 0) (w : Word) : imm (w ||| other) = imm w :=
  calc imm (w ||| other) = imm ((w ||| other) &&& mask) := (reads _).symm
    _ = imm (w &&& mask ||| other &&& mask) := by congr 1; ext; simp [Bool.and_or_distrib_right]
    _ = imm (w &&& mask) := by rw [outside]; exact congrArg imm BitVec.or_zero
    _ = imm w := reads w

theorem immI_placeImmI {imm : Word} (h : immFits12 imm = true) : immI (placeImmI imm) = imm := by
  simpa [encodeI, place] using immI_encodeI h 0 0 0 0

theorem immS_placeImmS {imm : Word} (h : immFits12 imm = true) : immS (placeImmS imm) = imm := by
  simpa [encodeS, place] using immS_encodeS h 0 0 0 0

theorem immB_placeImmB {imm : Word} (h : immFitsB imm = true) : immB (placeImmB imm) = imm := by
  simpa [encodeB, place] using immB_encodeB h 0 0 0 0

theorem immJ_placeImmJ {imm : Word} (h : immFitsJ imm = true) : immJ (placeImmJ imm) = imm := by
  simpa [encodeJ, place] using immJ_encodeJ h 0 0

/-! ### Encoding the fields of a word gives the word -/

section
variable {w : Word} {funct7 : BitVec 7} {funct3 : BitVec 3} {opcode : BitVec 7}

theorem encodeR_fields (h7 : funct7Of w = funct7) (h3 : funct3Of w = funct3) (hop : opcodeOf w = opcode) :
    encodeR funct7 (rs2Of w) (rs1Of w) funct3 (rdOf w) opcode = w := by
  subst h7 h3 hop
  unfold encodeR place funct7Of rs2Of rs1Of funct3Of rdOf opcodeOf extractBits
  ext i hi
  interval_cases i <;> simp

/-- The immediate need only agree with the word in the 12 bits the format has. -/
theorem encodeI_fields {imm : Word} (himm : extractBits imm 11 0 = imm12Of w) (h3 : funct3Of w = funct3)
    (hop : opcodeOf w = opcode) : encodeI imm (rs1Of w) funct3 (rdOf w) opcode = w := by
  subst h3 hop
  rw [encodeI, placeImmI, himm]
  unfold place imm12Of rs1Of funct3Of rdOf opcodeOf extractBits
  ext i hi
  interval_cases i <;> simp

theorem extractBits_immI (w : Word) : extractBits (immI w) 11 0 = imm12Of w := by
  unfold imm12Of extractBits
  ext i hi
  interval_cases i <;> simp [immI_bits]

theorem encodeS_fields (h3 : funct3Of w = funct3) (hop : opcodeOf w = opcode) :
    encodeS (immS w) (rs2Of w) (rs1Of w) funct3 opcode = w := by
  subst h3 hop
  unfold encodeS placeImmS place rs2Of rs1Of funct3Of opcodeOf extractBits
  ext i hi
  interval_cases i <;> simp [immS_bits]

theorem encodeB_fields (h3 : funct3Of w = funct3) (hop : opcodeOf w = opcode) :
    encodeB (immB w) (rs2Of w) (rs1Of w) funct3 opcode = w := by
  subst h3 hop
  unfold encodeB placeImmB place rs2Of rs1Of funct3Of opcodeOf extractBits
  ext i hi
  interval_cases i <;> simp [immB_bits]

theorem encodeU_fields (hop : opcodeOf w = opcode) : encodeU (immU w) (rdOf w) opcode = w := by
  subst hop
  unfold encodeU placeImmU place rdOf opcodeOf extractBits
  ext i hi
  interval_cases i <;> simp [immU_bits]

theorem encodeJ_fields (hop : opcodeOf w = opcode) : encodeJ (immJ w) (rdOf w) opcode = w := by
  subst hop
  unfold encodeJ placeImmJ place rdOf opcodeOf extractBits
  ext i hi
  interval_cases i <;> simp [immJ_bits]

end

/-! ### Decoded immediates fit -/

/-- `sext_N` gives a value of N bits, read as signed (R7). -/
theorem sext_toInt_range {n : Nat} (v : BitVec (n + 1)) (h : n < 32) :
    -2 ^ n ≤ (sext v).toInt ∧ (sext v).toInt < 2 ^ n := by
  rw [sext, BitVec.toInt_signExtend_of_le h]
  exact ⟨BitVec.le_toInt v, BitVec.toInt_lt⟩

theorem toInt_even_of_getElem_zero {v : Word} (h : v[0] = false) : v.toInt % 2 = 0 := by
  have hb : v.toNat % 2 = 0 := by simpa [BitVec.getElem_eq_testBit_toNat, Nat.testBit_zero] using h
  have := BitVec.toInt_eq_toNat_cond v
  omega

theorem immFits12_immI (w : Word) : immFits12 (immI w) = true := by
  have range : -2 ^ 11 ≤ (immI w).toInt ∧ (immI w).toInt < 2 ^ 11 := sext_toInt_range _ (by decide)
  exact decide_eq_true (by omega)

theorem immFits12_immS (w : Word) : immFits12 (immS w) = true := by
  have range : -2 ^ 11 ≤ (immS w).toInt ∧ (immS w).toInt < 2 ^ 11 := sext_toInt_range _ (by decide)
  exact decide_eq_true (by omega)

/-- Bit 0 of a B-type offset is 0, so the offset is even and never the 4095 its 13 bits would hold (R52). -/
theorem immFitsB_immB (w : Word) : immFitsB (immB w) = true := by
  have range : -2 ^ 12 ≤ (immB w).toInt ∧ (immB w).toInt < 2 ^ 12 := sext_toInt_range _ (by decide)
  have even := toInt_even_of_getElem_zero (immB_bits w 0 (by decide))
  exact decide_eq_true (by omega)

/-- Bit 0 of a J-type offset is 0, so the offset is even and never the 1048575 its 21 bits would hold (R54). -/
theorem immFitsJ_immJ (w : Word) : immFitsJ (immJ w) = true := by
  have range : -2 ^ 20 ≤ (immJ w).toInt ∧ (immJ w).toInt < 2 ^ 20 := sext_toInt_range _ (by decide)
  have even := toInt_even_of_getElem_zero (immJ_bits w 0 (by decide))
  exact decide_eq_true (by omega)

theorem immFitsU_immU (w : Word) : immFitsU (immU w) = true := by
  refine decide_eq_true ?_
  rw [immU, BitVec.and_assoc]
  exact BitVec.and_zero

/-! ### Dispatch -/

theorem funct3_cases (f : BitVec 3) :
    f = 0#3 ∨ f = 1#3 ∨ f = 2#3 ∨ f = 3#3 ∨ f = 4#3 ∨ f = 5#3 ∨ f = 6#3 ∨ f = 7#3 := by
  revert f
  decide

/-- The word's discriminator is in no row of its group (R74, R75). -/
def UnknownDiscriminator (w : Word) : Prop :=
  UnknownFunctCase (opcodeOf w) (funct3Of w) (funct7Of w) (imm12Of w)

/-- All that dispatch can make of a word: an instruction whose operands fit and whose encoding is the word, or one of the two
failures, which carry the word. -/
inductive DispatchesTo (w : Word) : Decoded → Prop where
  | instr {i : Instr} (known : ¬ UnknownDiscriminator w) (fits : i.wellFormed = true) (word : encode i = w) :
      DispatchesTo w (.instr i)
  | unknownFunct (unknown : UnknownDiscriminator w) : DispatchesTo w (.unknownFunct w)
  | unknownOpcode (hop : opcodeOf w ∉ opcodes) : DispatchesTo w (.unknownOpcode w)

section
variable {w : Word}

theorem decodeOp_dispatches (hop : opcodeOf w = 0x33#7) : DispatchesTo w (decodeOp w) := by
  unfold decodeOp
  split
  case h_19 =>
    refine .unknownFunct ?_
    by_cases h32 : funct7Of w = 0x20#7 <;>
      rcases funct3_cases (funct3Of w) with h3 | h3 | h3 | h3 | h3 | h3 | h3 | h3 <;>
      simp_all [UnknownDiscriminator, UnknownFunctCase]
  all_goals
    next h7 h3 =>
      exact .instr (by simp [UnknownDiscriminator, UnknownFunctCase, hop, h7, h3]) rfl (encodeR_fields h7 h3 hop)

theorem decodeOpImm_dispatches (hop : opcodeOf w = 0x13#7) : DispatchesTo w (decodeOpImm w) := by
  unfold decodeOpImm
  split
  case h_7 h3 =>
    split
    case h_1 h7 =>
      exact .instr (by simp [UnknownDiscriminator, UnknownFunctCase, hop, h7, h3]) rfl (encodeR_fields h7 h3 hop)
    case h_2 => exact .unknownFunct (by simp_all [UnknownDiscriminator, UnknownFunctCase])
  case h_8 h3 =>
    split
    case h_3 => exact .unknownFunct (by simp_all [UnknownDiscriminator, UnknownFunctCase])
    all_goals
      next h7 =>
        exact .instr (by simp [UnknownDiscriminator, UnknownFunctCase, hop, h7, h3]) rfl (encodeR_fields h7 h3 hop)
  all_goals
    next h3 =>
      exact .instr (by simp [UnknownDiscriminator, UnknownFunctCase, hop, h3]) (immFits12_immI w)
        (encodeI_fields (extractBits_immI w) h3 hop)

theorem decodeLoad_dispatches (hop : opcodeOf w = 0x03#7) : DispatchesTo w (decodeLoad w) := by
  unfold decodeLoad
  split
  case h_6 =>
    refine .unknownFunct ?_
    rcases funct3_cases (funct3Of w) with h3 | h3 | h3 | h3 | h3 | h3 | h3 | h3 <;>
      simp_all [UnknownDiscriminator, UnknownFunctCase]
  all_goals
    next h3 =>
      exact .instr (by simp [UnknownDiscriminator, UnknownFunctCase, hop, h3]) (immFits12_immI w)
        (encodeI_fields (extractBits_immI w) h3 hop)

theorem decodeJalr_dispatches (hop : opcodeOf w = 0x67#7) : DispatchesTo w (decodeJalr w) := by
  unfold decodeJalr
  split
  case h_1 h3 =>
    exact .instr (by simp [UnknownDiscriminator, UnknownFunctCase, hop, h3]) (immFits12_immI w)
      (encodeI_fields (extractBits_immI w) h3 hop)
  case h_2 => exact .unknownFunct (by simp_all [UnknownDiscriminator, UnknownFunctCase])

/-- The 12-bit field that tells `ecall` from `ebreak` is the whole of their immediate (R67). -/
theorem decodeSystem_dispatches (hop : opcodeOf w = 0x73#7) : DispatchesTo w (decodeSystem w) := by
  unfold decodeSystem
  split
  case h_3 =>
    refine .unknownFunct ?_
    by_cases h3 : funct3Of w = 0#3 <;> simp_all [UnknownDiscriminator, UnknownFunctCase]
  all_goals
    next h3 h12 =>
      exact .instr (by simp [UnknownDiscriminator, UnknownFunctCase, hop, h3, h12]) rfl
        (encodeI_fields h12.symm h3 hop)

theorem decodeStore_dispatches (hop : opcodeOf w = 0x23#7) : DispatchesTo w (decodeStore w) := by
  unfold decodeStore
  split
  case h_4 =>
    refine .unknownFunct ?_
    rcases funct3_cases (funct3Of w) with h3 | h3 | h3 | h3 | h3 | h3 | h3 | h3 <;>
      simp_all [UnknownDiscriminator, UnknownFunctCase]
  all_goals
    next h3 =>
      exact .instr (by simp [UnknownDiscriminator, UnknownFunctCase, hop, h3]) (immFits12_immS w) (encodeS_fields h3 hop)

theorem decodeBranch_dispatches (hop : opcodeOf w = 0x63#7) : DispatchesTo w (decodeBranch w) := by
  unfold decodeBranch
  split
  case h_7 =>
    refine .unknownFunct ?_
    rcases funct3_cases (funct3Of w) with h3 | h3 | h3 | h3 | h3 | h3 | h3 | h3 <;>
      simp_all [UnknownDiscriminator, UnknownFunctCase]
  all_goals
    next h3 =>
      exact .instr (by simp [UnknownDiscriminator, UnknownFunctCase, hop, h3]) (immFitsB_immB w) (encodeB_fields h3 hop)

end

theorem decodeWord_dispatches (w : Word) : DispatchesTo w (decodeWord w) := by
  by_cases mem : opcodeOf w ∈ opcodes
  case neg => exact Machine.decodeWord_of_opcode_notMem mem ▸ .unknownOpcode mem
  unfold decodeWord
  split
  case h_1 hop => exact decodeOp_dispatches hop
  case h_2 hop => exact decodeOpImm_dispatches hop
  case h_3 hop => exact decodeLoad_dispatches hop
  case h_4 hop => exact decodeJalr_dispatches hop
  case h_5 hop => exact decodeSystem_dispatches hop
  case h_6 hop => exact decodeStore_dispatches hop
  case h_7 hop => exact decodeBranch_dispatches hop
  case h_8 hop =>
    exact .instr (by simp [UnknownDiscriminator, UnknownFunctCase, hop]) (immFitsJ_immJ w) (encodeJ_fields hop)
  case h_9 hop | h_10 hop =>
    exact .instr (by simp [UnknownDiscriminator, UnknownFunctCase, hop]) (immFitsU_immU w) (encodeU_fields hop)
  case h_11 => simp_all [opcodes]

/-- The groups that have a discriminator are among the ten (R61). -/
theorem opcode_mem_of_unknownDiscriminator {w : Word} (h : UnknownDiscriminator w) : opcodeOf w ∈ opcodes := by
  by_contra hop
  simp_all [opcodes, UnknownDiscriminator, UnknownFunctCase]

theorem encode_of_decodeWord {w : Word} {i : Instr} (h : decodeWord w = .instr i) :
    i.wellFormed = true ∧ encode i = w := by
  have hd := decodeWord_dispatches w
  rw [h] at hd
  cases hd with
  | instr _ fits word => exact ⟨fits, word⟩

theorem decodeWord_eq_unknownOpcode_iff {w x : Word} :
    decodeWord w = .unknownOpcode x ↔ x = w ∧ opcodeOf w ∉ opcodes := by
  constructor
  · intro h
    have hd := decodeWord_dispatches w
    rw [h] at hd
    cases hd with
    | unknownOpcode hop => exact ⟨rfl, hop⟩
  · rintro ⟨rfl, hop⟩
    exact Machine.decodeWord_of_opcode_notMem hop

theorem decodeWord_eq_unknownFunct_iff {w x : Word} :
    decodeWord w = .unknownFunct x ↔ x = w ∧ UnknownDiscriminator w := by
  have hd := decodeWord_dispatches w
  constructor
  · intro h
    rw [h] at hd
    cases hd with
    | unknownFunct unknown => exact ⟨rfl, unknown⟩
  · rintro ⟨rfl, unknown⟩
    generalize decodeWord x = d at hd
    cases hd with
    | instr known => exact absurd unknown known
    | unknownFunct => rfl
    | unknownOpcode hop => exact absurd (opcode_mem_of_unknownDiscriminator unknown) hop

/-! ### Decoding an encoded instruction -/

theorem imm12Of_encodeI (imm : Word) (rs1 : RegIdx) (funct3 : BitVec 3) (rd : RegIdx) (opcode : BitVec 7) :
    imm12Of (encodeI imm rs1 funct3 rd opcode) = extractBits imm 11 0 := by
  unfold imm12Of encodeI placeImmI place extractBits
  ext i hi
  interval_cases i <;> simp

/-- A shift amount stands where rs2 does (R55). -/
theorem shamtOf_eq_rs2Of (w : Word) : shamtOf w = rs2Of w := rfl

/-- Each group finds the codes of its instruction in the encoded word, and each format its operands. -/
theorem decodeWord_encode {i : Instr} (h : i.wellFormed = true) : decodeWord (encode i) = .instr i := by
  cases i with
  | addi | slti | sltiu | xori | ori | andi =>
    simp only [encode, decodeWord, opcodeOf_encodeI, decodeOpImm, funct3Of_encodeI, rdOf_encodeI, rs1Of_encodeI,
      immI_encodeI h]
  | slli | srli | srai =>
    simp only [encode, decodeWord, opcodeOf_encodeR, decodeOpImm, funct7Of_encodeR, funct3Of_encodeR, rdOf_encodeR,
      rs1Of_encodeR, shamtOf_eq_rs2Of, rs2Of_encodeR]
  | lb | lh | lw | lbu | lhu =>
    simp only [encode, decodeWord, opcodeOf_encodeI, decodeLoad, funct3Of_encodeI, rdOf_encodeI, rs1Of_encodeI,
      immI_encodeI h]
  | jalr =>
    simp only [encode, decodeWord, opcodeOf_encodeI, decodeJalr, funct3Of_encodeI, rdOf_encodeI, rs1Of_encodeI,
      immI_encodeI h]
  | ecall | ebreak =>
    simp only [encode, decodeWord, opcodeOf_encodeI, decodeSystem, funct3Of_encodeI, imm12Of_encodeI, rdOf_encodeI,
      rs1Of_encodeI]
    rfl
  | sb | sh | sw =>
    simp only [encode, decodeWord, opcodeOf_encodeS, decodeStore, funct3Of_encodeS, rs1Of_encodeS, rs2Of_encodeS,
      immS_encodeS h]
  | beq | bne | blt | bge | bltu | bgeu =>
    simp only [encode, decodeWord, opcodeOf_encodeB, decodeBranch, funct3Of_encodeB, rs1Of_encodeB, rs2Of_encodeB,
      immB_encodeB h]
  | jal => simp only [encode, decodeWord, opcodeOf_encodeJ, rdOf_encodeJ, immJ_encodeJ h]
  | lui | auipc => simp only [encode, decodeWord, opcodeOf_encodeU, rdOf_encodeU, immU_encodeU h]
  | _ =>
    simp only [encode, decodeWord, opcodeOf_encodeR, decodeOp, funct7Of_encodeR, funct3Of_encodeR, rdOf_encodeR,
      rs1Of_encodeR, rs2Of_encodeR]

end Sys2Proof
end

section
/-! SUPPORT. The conditions a handler and `interpret` raise, and what an instruction that ends in a write-back does, which the
statements of spec/30_encoding.md need beyond Laws/. -/

namespace Sys2Proof.Machine

open Claims

/-! ### Conditions -/

/-- A load raises only what its access does. -/
theorem load_raised {n : Nat} {loadFrom : Memory → Word → Except Fault (BitVec n)} {extend : BitVec n → Word}
    {rd rs1 : RegIdx} {imm : Word} {s : State} {c : Fault} (h : load loadFrom extend rd rs1 imm s = .raised c) :
    loadFrom s.mem (effAddr rs1 imm s) = .error c := by
  rcases load_cases loadFrom extend rd rs1 imm s with ⟨_, _, hl⟩ | ⟨d, hd, hl⟩ <;> rw [hl] at h <;> cases h
  exact hd

/-- A store raises only what its access does. -/
theorem store_raised {storeTo : Memory → Word → Word → Except Fault Memory} {rs1 rs2 : RegIdx} {imm : Word} {s : State}
    {c : Fault} (h : store storeTo rs1 rs2 imm s = .raised c) :
    storeTo s.mem (effAddr rs1 imm s) (s.readReg rs2) = .error c := by
  rcases store_cases storeTo rs1 rs2 imm s with ⟨_, _, hs⟩ | ⟨d, hd, hs⟩ <;> rw [hs] at h <;> cases h
  exact hd

/-- The conditions an instruction itself can raise, once dispatch has recognised it (R161, R162). -/
inductive RaisedByHandler : Fault → Prop where
  | unimplemented (what : Unimplemented) : RaisedByHandler (.unimplemented what)
  | memoryOutOfBounds (addr : Word) (n : Nat) : RaisedByHandler (.memoryOutOfBounds addr n)

theorem Memory.checked_raised {α : Type} {m : Memory} {addr : Word} {n : Nat} {v : α} {c : Fault}
    (h : m.checked addr n v = .error c) : RaisedByHandler c := by
  rcases Memory.checked_cases m addr n v with ⟨_, hc⟩ | ⟨_, hc⟩ <;> rw [hc] at h <;> cases h
  exact .memoryOutOfBounds addr n

theorem handle_raised {i : Instr} {s : State} {c : Fault} (h : handle i s = .raised c) : RaisedByHandler c := by
  cases i with
  | lb | lh | lw | lbu | lhu => exact Memory.checked_raised (load_raised h)
  | sb | sh | sw => exact Memory.checked_raised (store_raised h)
  | beq | bne | blt | bge | bltu | bgeu =>
    rcases branch_cases _ _ s with ⟨_, hb⟩ | ⟨_, hb⟩ <;> cases hb.symm.trans h
  | ecall | ebreak | mul | mulh | mulhsu | mulhu | div | divu | rem | remu => cases h; exact .unimplemented _
  | _ => cases h

theorem interpret_eq_unknownOpcode_iff {w x : Word} {s : State} :
    interpret w s = .raised (.unknownOpcode x) ↔ decodeWord w = .unknownOpcode x := by
  unfold interpret
  cases decodeWord w with
  | instr i => exact iff_of_false (fun h => nomatch handle_raised h) nofun
  | unknownOpcode y | unknownFunct y => simp [raise]

theorem interpret_eq_unknownFunct_iff {w x : Word} {s : State} :
    interpret w s = .raised (.unknownFunct x) ↔ decodeWord w = .unknownFunct x := by
  unfold interpret
  cases decodeWord w with
  | instr i => exact iff_of_false (fun h => nomatch handle_raised h) nofun
  | unknownOpcode y | unknownFunct y => simp [raise]

/-! ### Write-backs -/

/-- An instruction whose handler writes `v` back completes, leaves `v` in rd and changes nothing else. -/
theorem writesOnly_of_handle {i : Instr} {s : State} {rd : RegIdx} {v : Word} (h : handle i s = writeBack s rd v) :
    WritesOnly i s rd v := by
  have next : exec i s = .next ((s.writeReg rd v).setPc (s.pc + 4)) := by
    rw [exec_eq_pcMux_handle, h, writeBack, pcMux, State.writeReg_pc]
  refine ⟨_, next, by rw [h]; rfl, State.readReg_writeReg s rd v, ⟨by simp, by simp⟩, fun nowrap => ?_⟩
  exact (BitVec.toNat_add _ _).trans (Nat.mod_eq_of_lt nowrap)

theorem xor_neg_one (v : Word) : v ^^^ -1 = BitVec.ofNat 32 (2 ^ 32 - 1 - v.toNat) := by
  have complement : v ^^^ -1 = ~~~v := BitVec.xor_allOnes
  rw [complement]
  apply BitVec.eq_of_toNat_eq
  rw [BitVec.toNat_not, BitVec.toNat_ofNat, Nat.mod_eq_of_lt (by omega)]

theorem zero_sub_eq_ofInt (v : Word) : 0 - v = BitVec.ofInt 32 (-v.toInt) := by
  rw [BitVec.ofInt_neg, BitVec.ofInt_toInt]
  exact BitVec.zero_sub v

theorem boolWord_ltUnsigned_one (v : Word) : boolWord (ltUnsigned v 1) = if v.toNat = 0 then 1 else 0 := by
  simp [boolWord, ltUnsigned]

theorem boolWord_ltUnsigned_zero (v : Word) : boolWord (ltUnsigned 0 v) = if v.toNat = 0 then 0 else 1 := by
  simp [boolWord, ltUnsigned, Nat.pos_iff_ne_zero]

end Sys2Proof.Machine
end

section
/-! PROOFS. The round trips of encoder and decoder, the fields and immediates of a word, the failures of dispatch, and the
register pseudo-instructions (spec/30_encoding.md). -/

namespace Sys2Proof.Proofs

open Sys2Proof.Machine Sys2Proof.Claims

/-- Settles O5, by the format laws of the encoder: group by group, the fields dispatch reads are those that were encoded. -/
theorem decodeOfEncodeIsTheInstruction : Obligations.DecodeOfEncodeIsTheInstruction :=
  fun _ h => decodeWord_encode h

/-- Settles O6: every row of dispatch answers an instruction whose operands fit and whose encoding is the word. -/
theorem encodeOfDecodeIsTheWord : Obligations.EncodeOfDecodeIsTheWord :=
  fun _ _ h => encode_of_decodeWord h

/-- Settles O2, the second half by induction on the cuts: the fields below each cut sum to the word modulo its power of two. -/
theorem extractBitsIsFloorModAndReconstructs : Obligations.ExtractBitsIsFloorModAndReconstructs :=
  ⟨extractBits_toNat, fun w _ h => (splitSum_eq_mod w le_rfl h).trans (Nat.mod_eq_of_lt w.isLt)⟩

/-- Settles O3: the fields and the I immediate are extractions by definition, the other immediates concatenations bit by bit. -/
theorem formatsGiveTheirFieldsAndImmediates : Obligations.FormatsGiveTheirFieldsAndImmediates :=
  fun w => ⟨rfl, rfl, rfl, rfl, rfl, rfl, rfl, immS_eq_append w, immB_eq_append w, immU_eq_append w, immJ_eq_append w⟩

/-- Settles O4: an immediate is read from its own positions only, and there the encoder has placed one that fits. -/
theorem immediateEncodersInvertTheDecoders : Obligations.ImmediateEncodersInvertTheDecoders := by
  refine ⟨fun off other low high even outside => ?_, fun off other low high even outside => ?_,
    fun off other low high outside => ?_, fun off other low high outside => ?_⟩
  all_goals
    have value : (BitVec.ofInt 32 off).toInt = off := BitVec.toInt_ofInt_eq_self (by decide) (by omega) (by omega)
  · have fits : immFitsB (BitVec.ofInt 32 off) = true := decide_eq_true (by omega)
    rw [read_or_of_and_mask immB_and_mask outside, encodeBImm, immB_placeImmB fits, value]
  · have fits : immFitsJ (BitVec.ofInt 32 off) = true := decide_eq_true (by omega)
    rw [read_or_of_and_mask immJ_and_mask outside, encodeJImm, immJ_placeImmJ fits, value]
  · have fits : immFits12 (BitVec.ofInt 32 off) = true := decide_eq_true (by omega)
    rw [read_or_of_and_mask immI_and_mask outside, encodeIImm, immI_placeImmI fits, value]
  · have fits : immFits12 (BitVec.ofInt 32 off) = true := decide_eq_true (by omega)
    rw [read_or_of_and_mask immS_and_mask outside, encodeSImm, immS_placeImmS fits, value]

/-- Settles O8: only dispatch raises UnknownOpcode, and exactly outside the ten opcodes. -/
theorem unknownOpcodeExactlyOutsideTheTenGroups : Obligations.UnknownOpcodeExactlyOutsideTheTenGroups := by
  intro w s
  simp only [interpret_eq_unknownOpcode_iff, decodeWord_eq_unknownOpcode_iff, exists_eq_left]
  rfl

/-- Settles O9: only dispatch raises UnknownFunct, and exactly where the discriminator is in no row of its group. -/
theorem unknownFunctExactlyOnTheList : Obligations.UnknownFunctExactlyOnTheList := by
  intro w s x
  rw [interpret_eq_unknownFunct_iff, decodeWord_eq_unknownFunct_iff]
  rfl

/-- Settles O45: each expansion ends in a write-back, and what it writes is what the pseudo-instruction names. -/
theorem registerPseudoInstructionsDoWhatTheyName : Obligations.RegisterPseudoInstructionsDoWhatTheyName := by
  intro rd rs imm s
  have written {i : Instr} {u v : Word} (h : handle i s = writeBack s rd u) (value : u = v) : WritesOnly i s rd v :=
    writesOnly_of_handle (value ▸ h)
  refine ⟨⟨_, rfl, ?mv⟩, ⟨_, rfl, ?not⟩, ⟨_, rfl, ?neg⟩, ⟨_, rfl, ?seqz⟩, ⟨_, rfl, ?snez⟩,
    fun fits => ⟨_, if_pos (decide_eq_true fits), ?li⟩, fun wide => if_neg ?wide⟩
  case mv => exact written rfl (BitVec.add_zero _)
  case not => exact written rfl (xor_neg_one _)
  case neg => exact written rfl (zero_sub_eq_ofInt _)
  case seqz => exact written rfl (boolWord_ltUnsigned_one _)
  case snez => exact written rfl (boolWord_ltUnsigned_zero _)
  case li => exact written rfl (BitVec.zero_add _)
  case wide => simpa [immFits12] using wide

end Sys2Proof.Proofs
end

section
/-! SUPPORT. Laws of the opcode table, which the statements of spec/40_step_and_dispatch.md need beyond Laws/. -/

namespace Sys2Proof

open Claims

/-! ### The opcode table -/

/-- A row's mnemonic names the row. -/
theorem row_eq_of_mnemonic_eq {row row' : OpcodeRow} (hrow : row ∈ opcodeTable) (hrow' : row' ∈ opcodeTable)
    (h : row.mnemonic = row'.mnemonic) : row = row' := by
  have distinct : (opcodeTable.map OpcodeRow.mnemonic).Nodup := by decide
  exact List.inj_on_of_nodup_map distinct hrow hrow' h

/-- No word matches two rows: the bits both masks cover tell any two rows apart. -/
theorem row_eq_of_matches {row row' : OpcodeRow} (hrow : row ∈ opcodeTable) (hrow' : row' ∈ opcodeTable) {w : Word}
    (h : w &&& row.mask = row.pattern) (h' : w &&& row'.mask = row'.pattern) : row = row' := by
  have apart : ∀ r ∈ opcodeTable, ∀ r' ∈ opcodeTable, r.pattern &&& r'.mask = r'.pattern &&& r.mask → r = r' := by
    decide
  refine apart row hrow row' hrow' ?_
  rw [← h, ← h', BitVec.and_assoc, BitVec.and_assoc, BitVec.and_comm row.mask]

/-- Every row's mask covers the opcode, and every row's opcode is one of the ten (R61). -/
theorem opcode_of_matches {row : OpcodeRow} (hrow : row ∈ opcodeTable) {w : Word}
    (h : w &&& row.mask = row.pattern) : opcodeOf w = opcodeOf row.pattern ∧ opcodeOf w ∈ opcodes := by
  have covered : ∀ r ∈ opcodeTable, opcodeOf r.mask = BitVec.allOnes 7 ∧ opcodeOf r.pattern ∈ opcodes := by decide
  obtain ⟨hmask, hmem⟩ := covered row hrow
  have hop := opcodeOf_of_mask h hmask
  exact ⟨hop, hop ▸ hmem⟩

/-- A row fixes whatever its group discriminates on, at a value the group knows. -/
theorem not_unknownDiscriminator_of_matches {row : OpcodeRow} (hrow : row ∈ opcodeTable) {w : Word}
    (h : w &&& row.mask = row.pattern) : ¬ UnknownDiscriminator w := by
  have hop := (opcode_of_matches hrow h).1
  have h3 := funct3Of_of_mask h
  have h7 := funct7Of_of_mask h
  have h12 := imm12Of_of_mask h
  fin_cases hrow <;> simp (decide := true) [UnknownDiscriminator, UnknownFunctCase, hop, h3, h7, h12]

open Laws in
/-- The encoding of every instruction is matched by its row of the opcode table. -/
theorem encode_matches_row (i : Instr) : TableRow.Statement i := by
  cases i
  exacts [TableRow.add .., TableRow.sub .., TableRow.sll .., TableRow.slt .., TableRow.sltu .., TableRow.xor ..,
    TableRow.srl .., TableRow.sra .., TableRow.or .., TableRow.and .., TableRow.addi .., TableRow.slti ..,
    TableRow.sltiu .., TableRow.xori .., TableRow.ori .., TableRow.andi .., TableRow.slli .., TableRow.srli ..,
    TableRow.srai .., TableRow.lb .., TableRow.lh .., TableRow.lw .., TableRow.lbu .., TableRow.lhu ..,
    TableRow.sb .., TableRow.sh .., TableRow.sw .., TableRow.beq .., TableRow.bne .., TableRow.blt ..,
    TableRow.bge .., TableRow.bltu .., TableRow.bgeu .., TableRow.jal .., TableRow.jalr .., TableRow.lui ..,
    TableRow.auipc .., TableRow.ecall .., TableRow.ebreak .., TableRow.mul .., TableRow.mulh .., TableRow.mulhsu ..,
    TableRow.mulhu .., TableRow.div .., TableRow.divu .., TableRow.rem .., TableRow.remu ..]

/-- The row of a decoded instruction's mnemonic matches the word it was decoded from (R92). -/
theorem exists_matching_row {w : Word} {i : Instr} (h : decodeWord w = .instr i) :
    ∃ row ∈ opcodeTable, row.mnemonic = i.mnemonic ∧ w &&& row.mask = row.pattern := by
  obtain ⟨-, rfl⟩ := encode_of_decodeWord h
  exact encode_matches_row i

/-- A word whose opcode and discriminator are known decodes to an instruction. -/
theorem exists_decodeWord_eq_instr {w : Word} (hop : opcodeOf w ∈ opcodes) (known : ¬ UnknownDiscriminator w) :
    ∃ i, decodeWord w = .instr i := by
  have hd := decodeWord_dispatches w
  generalize decodeWord w = d at hd
  cases hd with
  | instr => exact ⟨_, rfl⟩
  | unknownFunct unknown => exact absurd unknown known
  | unknownOpcode hne => exact absurd hop hne

end Sys2Proof
end

section
/-! SUPPORT. Laws of the fetch's tests, of `interpret`, of the redirected flag and of runs, which the statements of
spec/40_step_and_dispatch.md need beyond Laws/. -/

namespace Sys2Proof.Machine

open Claims

/-! ### The fetch -/

/-- `is_compressed` reads the low two bits of the half-word (R56). -/
theorem isCompressed_iff (h : Half) : isCompressed h = true ↔ h.toNat % 4 ≠ 3 := by
  have low : (h.extractLsb 1 0).toNat = h.toNat % 4 := by simp [BitVec.extractLsb]
  rw [isCompressed, bne_iff_ne, ne_eq, ← BitVec.toNat_inj, low]
  rfl

/-- Four bytes read as a word do not look compressed, and the word is theirs (R83). -/
theorem decodeBytes_four_eq_word {b0 b1 b2 b3 : Byte} {d : Decoded} (h : decodeBytes [b0, b1, b2, b3] = .word d []) :
    isCompressed (halfOfBytes b0 b1) = false ∧ decodeWord (wordOfBytes b0 b1 b2 b3) = d := by
  cases hc : isCompressed (halfOfBytes b0 b1) with
  | true => simp [decodeBytes, hc] at h
  | false => exact ⟨rfl, by simpa [decodeBytes, hc] using h⟩

section
variable {s : State}

/-- The half-word the prefetch reads (R83). -/
def prefetched (s : State) : Half := halfOfBytes (s.mem.byteAt s.pc.toNat) (s.mem.byteAt (s.pc.toNat + 1))

theorem prefetched_toNat (s : State) : (prefetched s).toNat = half s.mem s.pc.toNat := halfOfBytes_toNat _ _

theorem prefetched_eq_ofNat (s : State) : prefetched s = BitVec.ofNat 16 (half s.mem s.pc.toNat) := by
  rw [← prefetched_toNat, BitVec.ofNat_toNat, BitVec.setWidth_eq]

theorem quad_eq_toNat (m : Memory) (a : Nat) : quad m a =
    (wordOfBytes (m.byteAt a) (m.byteAt (a + 1)) (m.byteAt (a + 2)) (m.byteAt (a + 3))).toNat := by
  rw [wordOfBytes_toNat, quad, half, half, Nat.add_assoc a 2 1]
  omega

/-- The word the fetch assembles is the little-endian number at pc (R33). -/
theorem wordOfBytes_eq_wordAtPc (s : State) :
    wordOfBytes (s.mem.byteAt s.pc.toNat) (s.mem.byteAt (s.pc.toNat + 1)) (s.mem.byteAt (s.pc.toNat + 2))
      (s.mem.byteAt (s.pc.toNat + 3)) = wordAtPc s := by
  rw [wordAtPc, quad_eq_toNat, BitVec.ofNat_toNat, BitVec.setWidth_eq]

/-- The prefetch's bounds come first (R83). -/
theorem fetch_of_no_half (outside : s.mem.size < s.pc.toNat + 2) : fetch s = .error (.memoryOutOfBounds s.pc 2) := by
  rw [fetch, Memory.loadHalf, Memory.checked_error outside]

/-- Once the half-word fits, the fetch makes the compressed test and then reads the word (R83). -/
theorem fetch_of_half (fits : s.pc.toNat + 2 ≤ s.mem.size) :
    fetch s = if isCompressed (prefetched s) then .error (.unimplemented (.compressed (prefetched s)))
      else s.mem.loadWord s.pc := by
  rw [fetch, Memory.loadHalf, Memory.checked_ok fits]
  rfl

/-- The compressed test comes before the bounds of the word (R165). -/
theorem fetch_of_compressed (fits : s.pc.toNat + 2 ≤ s.mem.size) (hc : half s.mem s.pc.toNat % 4 ≠ 3) :
    fetch s = .error (.unimplemented (.compressed (BitVec.ofNat 16 (half s.mem s.pc.toNat)))) := by
  rw [← prefetched_toNat] at hc
  rw [fetch_of_half fits, if_pos ((isCompressed_iff _).mpr hc), prefetched_eq_ofNat]

/-- A half-word that is not compressed is followed by the checked read of the word at pc (R83). -/
theorem fetch_of_not_compressed (fits : s.pc.toNat + 2 ≤ s.mem.size) (hc : half s.mem s.pc.toNat % 4 = 3) :
    fetch s = s.mem.checked s.pc 4 (wordAtPc s) := by
  rw [← prefetched_toNat] at hc
  rw [fetch_of_half fits, if_neg (by simpa [isCompressed_iff] using hc), Memory.loadWord, wordOfBytes_eq_wordAtPc]

/-- A condition of the fetch is the condition of the step (R85). -/
theorem step_of_fetch_error {c : Fault} (h : fetch s = .error c) : step s = .fault c := by
  simp only [step, h]

/-- After a fetch that answers, the step is `interpret` of the word, then the PC mux (R84, R85). -/
theorem step_of_fetch_ok {w : Word} (h : fetch s = .ok w) : step s = pcMux (interpret w s) := by
  simp only [step, h, interpret]
  cases decodeWord w with
  | instr i => exact exec_eq_pcMux_handle i s
  | unknownOpcode x | unknownFunct x => rfl

end

/-! ### interpret -/

/-- `interpret` of a word that decodes is the instruction's handler (R60). -/
theorem interpret_of_decodeWord {w : Word} {i : Instr} (h : decodeWord w = .instr i) (s : State) :
    interpret w s = handle i s := by
  simp only [interpret, h]

/-- The ten opcodes all end in 0b11 (R61). -/
theorem opcode_notMem_of_low_bits {w : Word} (h : w.extractLsb' 0 2 ≠ 0b11) : opcodeOf w ∉ opcodes := by
  have ends : ∀ op ∈ opcodes, op.extractLsb' 0 2 = 0b11#2 := by decide
  have low : (opcodeOf w).extractLsb' 0 2 = w.extractLsb' 0 2 := BitVec.extractLsb'_extractLsb'_of_le (by decide)
  exact fun hmem => h (low ▸ ends _ hmem)

/-! ### The redirected flag -/

theorem Interp.flag_eq_none_iff {o : Interp} : o.flag = none ↔ ∃ c, o = .raised c := by
  cases o <;> simp [Interp.flag]

/-- A branch on `P` redirects exactly when `P` holds (R128). -/
theorem branch_flag {cond : Bool} {P : Prop} (hP : cond = true ↔ P) (imm : Word) (s : State) :
    (P → (branch cond imm s).flag = some true) ∧ (¬ P → (branch cond imm s).flag = some false) := by
  rcases branch_cases cond imm s with ⟨hc, hb⟩ | ⟨hc, hb⟩ <;> rw [hb]
  · exact ⟨fun _ => rfl, fun hn => absurd (hP.mp hc) hn⟩
  · exact ⟨fun hp => by simp [hP.mpr hp] at hc, fun _ => rfl⟩

theorem load_flag {n : Nat} (loadFrom : Memory → Word → Except Fault (BitVec n)) (extend : BitVec n → Word)
    (rd rs1 : RegIdx) (imm : Word) (s : State) : (load loadFrom extend rd rs1 imm s).flag ≠ some true := by
  rcases load_cases loadFrom extend rd rs1 imm s with ⟨_, _, h⟩ | ⟨_, _, h⟩ <;> rw [h] <;> nofun

theorem store_flag (storeTo : Memory → Word → Word → Except Fault Memory) (rs1 rs2 : RegIdx) (imm : Word) (s : State) :
    (store storeTo rs1 rs2 imm s).flag ≠ some true := by
  rcases store_cases storeTo rs1 rs2 imm s with ⟨_, _, h⟩ | ⟨_, _, h⟩ <;> rw [h] <;> nofun

/-- Every handler leaves the flag that R81's table gives its instruction. -/
theorem flagOf_handle (i : Instr) (s : State) : FlagOf s i (handle i s).flag := by
  cases i with
  | lb | lh | lw | lbu | lhu => exact load_flag _ _ _ _ _ s
  | sb | sh | sw => exact store_flag _ _ _ _ s
  | beq | bne =>
    refine branch_flag ?_ _ s
    exact decide_eq_true_iff
  | blt => exact branch_flag (ltSigned_iff _ _) _ s
  | bge => exact branch_flag (not_ltSigned_iff _ _) _ s
  | bltu => exact branch_flag (ltUnsigned_iff _ _) _ s
  | bgeu => exact branch_flag (not_ltUnsigned_iff _ _) _ s
  | _ => rfl

/-! ### Runs -/

/-- A run that ends has taken completed steps to the state it ends in, which raises the condition. -/
theorem reaches_of_runFrom_eq_raised {fuel n k : Nat} {s t : State} {c : Fault} (h : runFrom fuel n s = .raised c t k) :
    ∃ j < fuel, k = n + j ∧ Reaches j s t ∧ Raises t c := by
  induction fuel generalizing n s with
  | zero => cases h
  | succ fuel ih =>
    unfold runFrom at h
    split at h
    next u hstep =>
      obtain ⟨j, hj, rfl, hreach, hraise⟩ := ih h
      exact ⟨j + 1, by omega, by omega, .succ hstep hreach, hraise⟩
    next d hstep =>
      cases h
      exact ⟨0, by omega, rfl, .zero _, hstep⟩
    next => cases h

/-- A run with fuel for the steps to a state that raises a condition, and for that state's own step, ends there. -/
theorem runFrom_eq_raised_of_reaches {j : Nat} {s t : State} {c : Fault} (hreach : Reaches j s t) (hraise : Raises t c)
    {fuel : Nat} (enough : j < fuel) (n : Nat) : runFrom fuel n s = .raised c t (n + j) := by
  induction hreach generalizing fuel n with
  | zero s =>
    obtain ⟨fuel, rfl⟩ := Nat.exists_eq_add_one_of_ne_zero (by omega : fuel ≠ 0)
    rw [runFrom, hraise]
    rfl
  | succ hstep _ ih =>
    obtain ⟨fuel, rfl⟩ := Nat.exists_eq_add_one_of_ne_zero (by omega : fuel ≠ 0)
    simp only [runFrom, hstep]
    rw [ih hraise (by omega), Nat.add_assoc, Nat.add_comm 1]

end Sys2Proof.Machine
end

section
/-! PROOFS. The opcode table, the fetch loop, `interpret` called directly with its redirected value, and the end of a run
(spec/40_step_and_dispatch.md). -/

namespace Sys2Proof.Proofs

open Sys2Proof.Machine Sys2Proof.Claims

/-- Settles O7: a matching word is known to dispatch, so it decodes, and the row of what it decodes to can only be the one it
matches; conversely the row of a decoded instruction matches, and its mnemonic names it. -/
theorem opcodeTableRowsSelectTheirInstruction : Obligations.OpcodeTableRowsSelectTheirInstruction := by
  refine ⟨rfl, fun w row hrow => ⟨fun h => ?_, fun ⟨i, hi, hname⟩ => ?_⟩⟩
  · obtain ⟨-, hop⟩ := opcode_of_matches hrow h
    obtain ⟨i, hi⟩ := exists_decodeWord_eq_instr hop (not_unknownDiscriminator_of_matches hrow h)
    obtain ⟨row', hrow', hname, h'⟩ := exists_matching_row hi
    obtain rfl := row_eq_of_matches hrow hrow' h h'
    exact ⟨i, hi, hname.symm⟩
  · obtain ⟨row', hrow', hname', h'⟩ := exists_matching_row hi
    obtain rfl := row_eq_of_mnemonic_eq hrow hrow' (hname.symm.trans hname'.symm)
    exact h'

/-- Settles O10: the ten opcodes end in 0b11, and UnknownOpcode carries the word dispatch was given. -/
theorem interpretHasNoCompressedTest : Obligations.InterpretHasNoCompressedTest := by
  refine fun w s => ⟨fun low => ?_, fun x h => ?_⟩
  · exact interpret_eq_unknownOpcode_iff.mpr (decodeWord_of_opcode_notMem (opcode_notMem_of_low_bits low))
  · exact (decodeWord_eq_unknownOpcode_iff.mp (interpret_eq_unknownOpcode_iff.mp h)).1

/-- Settles O16: the fetch answers one of its three conditions, in their order, or the word at pc. -/
theorem stepFollowsTheFetchLoop : Obligations.StepFollowsTheFetchLoop := by
  intro s
  split_ifs with noHalf compressed noWord
  · exact step_of_fetch_error (fetch_of_no_half noHalf)
  · exact step_of_fetch_error (fetch_of_compressed (by omega) compressed)
  · have hfetch := fetch_of_not_compressed (by omega) (not_not.mp compressed)
    exact step_of_fetch_error (hfetch.trans (Memory.checked_error noWord _))
  · have hfetch := fetch_of_not_compressed (by omega) (not_not.mp compressed)
    exact step_of_fetch_ok (hfetch.trans (Memory.checked_ok (by omega) _))

/-- Settles O17: `interpret` of a word that decodes is the handler, whose flag is the table's. -/
theorem redirectedFlagIsFixedByTheInstruction : Obligations.RedirectedFlagIsFixedByTheInstruction := by
  refine fun w s => ⟨Interp.flag_eq_none_iff, fun i hi => ?_⟩
  rw [interpret_of_decodeWord hi]
  exact flagOf_handle i s

/-- Settles O24: the run follows the completed steps, and stops at the first step that is none. -/
theorem runEndsAtTheFirstRaisedCondition : Obligations.RunEndsAtTheFirstRaisedCondition := by
  refine fun fuel s t c k => ⟨fun h => ?_, fun ⟨hk, hreach, hraise⟩ => ?_⟩
  · obtain ⟨j, hj, hk, hreach, hraise⟩ := reaches_of_runFrom_eq_raised h
    obtain rfl : k = j := by omega
    exact ⟨hj, hreach, hraise⟩
  · have hend := runFrom_eq_raised_of_reaches hreach hraise hk 0
    rwa [Nat.zero_add] at hend

/-- Settles O15: bytes that decode to an instruction do not look compressed, so the fetch answers their word. -/
theorem stepRunsTheDecodedInstruction : Obligations.StepRunsTheDecodedInstruction := by
  intro s i fits h
  obtain ⟨hc, hi⟩ := decodeBytes_four_eq_word h
  refine ⟨?_, exec_eq_pcMux_handle i s⟩
  calc step s = pcMux (interpret _ s) := step_of_fetch_ok (fetch_of_fits fits hc)
    _ = pcMux (handle i s) := congrArg pcMux (interpret_of_decodeWord hi s)
    _ = exec i s := (exec_eq_pcMux_handle i s).symm

end Sys2Proof.Proofs
end

section
/-! SUPPORT. What the operations of the ALU compute, as arithmetic on the integers the patterns stand for, which the statements
of spec/41_alu_reg.md need beyond Laws/. -/

namespace Sys2Proof.Machine

open Claims

/-! ### Write-backs -/

/-- A handler's written value may be stated in any equal form. -/
theorem writesOnly_of_handle_of_eq {i : Instr} {s : State} {rd : RegIdx} {u v : Word}
    (h : handle i s = writeBack s rd u) (value : u = v) : WritesOnly i s rd v :=
  writesOnly_of_handle (value ▸ h)

/-! ### The values in integers -/

theorem add_eq_ofInt (a b : Word) : a + b = BitVec.ofInt 32 (a.toInt + b.toInt) := by
  rw [BitVec.ofInt_add, BitVec.ofInt_toInt, BitVec.ofInt_toInt]

theorem sub_eq_ofInt (a b : Word) : a - b = BitVec.ofInt 32 (a.toInt - b.toInt) := by
  rw [Int.sub_eq_add_neg, BitVec.ofInt_add, BitVec.ofInt_neg, BitVec.ofInt_toInt, BitVec.ofInt_toInt,
    BitVec.sub_eq_add_neg]

/-- The mask 0x1F keeps the low five bits, the remainder modulo 32 (R96). -/
theorem shiftAmount_eq_mod (v : Word) : shiftAmount v = v.toNat % 32 := by
  rw [shiftAmount, BitVec.toNat_and]
  exact Nat.and_two_pow_sub_one_eq_mod v.toNat 5

theorem shiftLeft_eq_ofNat_mul (a : Word) (n : Nat) : a <<< n = BitVec.ofNat 32 (a.toNat * 2 ^ n) := by
  apply BitVec.eq_of_toNat_eq
  rw [BitVec.toNat_shiftLeft, BitVec.toNat_ofNat, Nat.shiftLeft_eq]

theorem ushiftRight_eq_ofNat_div (a : Word) (n : Nat) : a >>> n = BitVec.ofNat 32 (a.toNat / 2 ^ n) := by
  apply BitVec.eq_of_toNat_eq
  have small : a.toNat / 2 ^ n < 2 ^ 32 := lt_of_le_of_lt (Nat.div_le_self _ _) a.isLt
  rw [BitVec.toNat_ushiftRight, BitVec.toNat_ofNat, Nat.shiftRight_eq_div_pow, Nat.mod_eq_of_lt small]

/-- The arithmetic shift is floor division: it rounds towards minus infinity (R101). -/
theorem sshiftRight_eq_ofInt_div (a : Word) (n : Nat) : a.sshiftRight n = BitVec.ofInt 32 (a.toInt / 2 ^ n) := by
  rw [BitVec.sshiftRight_eq, Int.shiftRight_eq_div_pow, Nat.cast_pow, Nat.cast_ofNat]

theorem boolWord_ltSigned (a b : Word) : boolWord (ltSigned a b) = if a.toInt < b.toInt then 1 else 0 := by
  simp only [boolWord, ltSigned_iff]

theorem boolWord_ltUnsigned (a b : Word) : boolWord (ltUnsigned a b) = if a.toNat < b.toNat then 1 else 0 := by
  simp only [boolWord, ltUnsigned_iff]

end Sys2Proof.Machine
end

section
/-! PROOFS. The register-register instructions: arithmetic, shifts, comparisons and logic (spec/41_alu_reg.md). -/

namespace Sys2Proof.Proofs

open Sys2Proof.Machine Sys2Proof.Claims

/-! ### The words of a row -/

/-- A row of the table encodes `make` when `make` of each matching word is a well-formed instruction with that very
encoding: decoding inverts encoding, and no other word decodes to the row's mnemonic (R92). -/
theorem encodes_of_row {name : String} {pattern mask : Word} {make : Word → Instr}
    (hrow : ⟨name, pattern, mask⟩ ∈ opcodeTable)
    (hmake : ∀ w, w &&& mask = pattern → (make w).wellFormed = true ∧ encode (make w) = w) :
    Encodes name pattern mask make := by
  refine ⟨fun w hw => ?_, fun w i hi hname => ?_⟩
  · obtain ⟨fits, word⟩ := hmake w hw
    calc decodeWord w = decodeWord (encode (make w)) := by rw [word]
      _ = .instr (make w) := decodeWord_encode fits
  · exact (opcodeTableRowsSelectTheirInstruction.2 w _ hrow).mpr ⟨i, hi, hname⟩

/-- An R-type row encodes the instruction whose encoding has the pattern's opcode, funct3 and funct7 (R49, R92). -/
theorem encodes_ofR {name : String} {pattern : Word} {f : RegIdx → RegIdx → RegIdx → Instr}
    (hrow : ⟨name, pattern, 0xFE00707F⟩ ∈ opcodeTable) (fits : ∀ rd rs1 rs2, (f rd rs1 rs2).wellFormed = true)
    (word : ∀ rd rs1 rs2, encode (f rd rs1 rs2) =
      encodeR (funct7Of pattern) rs2 rs1 (funct3Of pattern) rd (opcodeOf pattern)) :
    Encodes name pattern 0xFE00707F (ofR f) := by
  refine encodes_of_row hrow fun w hw => ⟨fits _ _ _, (word _ _ _).trans ?_⟩
  exact encodeR_fields (funct7Of_of_mask hw (by decide)) (funct3Of_of_mask hw (by decide))
    (opcodeOf_of_mask hw (by decide))

/-! ### The instructions -/

/-- Settles O26: the two rows' fields are those of the encoder, and a sum of words is the sum of their signed values,
modulo 2^32. -/
theorem addSubWrapAndWriteOnlyRd : Obligations.AddSubWrapAndWriteOnlyRd := by
  refine ⟨?add, ?sub, fun rd rs1 rs2 s => ⟨?sum, ?difference⟩⟩
  case add | sub => exact encodes_ofR (by decide) (fun _ _ _ => rfl) (fun _ _ _ => rfl)
  case sum => exact writesOnly_of_handle_of_eq rfl (add_eq_ofInt _ _)
  case difference => exact writesOnly_of_handle_of_eq rfl (sub_eq_ofInt _ _)

/-- Settles O27: the amount is x[rs2] modulo 32, and each shift by a number of places is its multiplication or division
by that power of two. -/
theorem registerShiftsMaskTheAmount : Obligations.RegisterShiftsMaskTheAmount := by
  refine ⟨?sll, ?srl, ?sra, fun rd rs1 rs2 s => ?_⟩
  case sll | srl | sra => exact encodes_ofR (by decide) (fun _ _ _ => rfl) (fun _ _ _ => rfl)
  rw [← shiftAmount_eq_mod]
  refine ⟨?left, ?logical, ?arithmetic⟩
  case left => exact writesOnly_of_handle_of_eq rfl (shiftLeft_eq_ofNat_mul _ _)
  case logical => exact writesOnly_of_handle_of_eq rfl (ushiftRight_eq_ofNat_div _ _)
  case arithmetic => exact writesOnly_of_handle_of_eq rfl (sshiftRight_eq_ofInt_div _ _)

/-- Settles O28: the 1 or 0 written decides the comparison of the integers the two patterns stand for. -/
theorem registerComparesWriteOneOrZero : Obligations.RegisterComparesWriteOneOrZero := by
  refine ⟨?slt, ?sltu, fun rd rs1 rs2 s => ⟨?signed, ?unsigned⟩⟩
  case slt | sltu => exact encodes_ofR (by decide) (fun _ _ _ => rfl) (fun _ _ _ => rfl)
  case signed => exact writesOnly_of_handle_of_eq rfl (boolWord_ltSigned _ _)
  case unsigned => exact writesOnly_of_handle_of_eq rfl (boolWord_ltUnsigned _ _)

/-- Settles O29: the value written is the word's bitwise operation, whose bits the library gives. -/
theorem registerLogicIsBitwise : Obligations.RegisterLogicIsBitwise := by
  refine ⟨?xor, ?or, ?and, fun rd rs1 rs2 s => ⟨?exclusive, ?inclusive, ?conjunction⟩⟩
  case xor | or | and => exact encodes_ofR (by decide) (fun _ _ _ => rfl) (fun _ _ _ => rfl)
  case exclusive => exact ⟨_, writesOnly_of_handle rfl, fun _ => BitVec.getLsbD_xor⟩
  case inclusive => exact ⟨_, writesOnly_of_handle rfl, fun _ => BitVec.getLsbD_or⟩
  case conjunction => exact ⟨_, writesOnly_of_handle rfl, fun _ => BitVec.getLsbD_and⟩

end Sys2Proof.Proofs
end

section
/-! PROOFS. The register-immediate instructions: arithmetic, comparisons, logic and the immediate shifts
(spec/42_alu_imm.md). -/

namespace Sys2Proof.Proofs

open Sys2Proof.Machine Sys2Proof.Claims

/-! ### The words of a row -/

/-- An I-type row encodes the instruction whose encoding has the pattern's opcode and funct3, and whose one condition on
its operands, that the immediate fits 12 bits, every decoded immediate meets (R50, R92). -/
theorem encodes_ofI {name : String} {pattern : Word} {f : RegIdx → RegIdx → Word → Instr}
    (hrow : ⟨name, pattern, 0x0000707F⟩ ∈ opcodeTable)
    (fits : ∀ rd rs1 imm, (f rd rs1 imm).wellFormed = immFits12 imm)
    (word : ∀ rd rs1 imm, encode (f rd rs1 imm) = encodeI imm rs1 (funct3Of pattern) rd (opcodeOf pattern)) :
    Encodes name pattern 0x0000707F (ofI f) := by
  refine encodes_of_row hrow fun w hw => ⟨(fits _ _ _).trans (immFits12_immI w), (word _ _ _).trans ?_⟩
  exact encodeI_fields (extractBits_immI w) (funct3Of_of_mask hw (by decide)) (opcodeOf_of_mask hw (by decide))

/-! ### The instructions -/

/-- Settles O30: a sum of words is the sum of their signed values modulo 2^32, and the 1 or 0 of `slti` decides the
comparison of the signed values. -/
theorem addiSltiWriteOnlyRd : Obligations.AddiSltiWriteOnlyRd := by
  refine ⟨?addi, ?slti, fun rd rs1 imm s => ⟨?sum, ?signed⟩⟩
  case addi | slti => exact encodes_ofI (by decide) (fun _ _ _ => rfl) (fun _ _ _ => rfl)
  case sum => exact writesOnly_of_handle_of_eq rfl (add_eq_ofInt _ _)
  case signed => exact writesOnly_of_handle_of_eq rfl (boolWord_ltSigned _ _)

/-- Settles O31: the handler compares with the whole 32-bit immediate the decoder extended, read as unsigned. -/
theorem sltiuComparesWithTheExtendedImmediate : Obligations.SltiuComparesWithTheExtendedImmediate := by
  refine ⟨?sltiu, fun rd rs1 imm s => ?unsigned⟩
  case sltiu => exact encodes_ofI (by decide) (fun _ _ _ => rfl) (fun _ _ _ => rfl)
  case unsigned => exact writesOnly_of_handle_of_eq rfl (boolWord_ltUnsigned _ _)

/-- Settles O32: the value written is the bitwise operation of x[rs1] and the extended immediate, whose bits the library
gives. -/
theorem immediateLogicIsBitwise : Obligations.ImmediateLogicIsBitwise := by
  refine ⟨?xori, ?ori, ?andi, fun rd rs1 imm s => ⟨?exclusive, ?inclusive, ?conjunction⟩⟩
  case xori | ori | andi => exact encodes_ofI (by decide) (fun _ _ _ => rfl) (fun _ _ _ => rfl)
  case exclusive => exact ⟨_, writesOnly_of_handle rfl, fun _ => BitVec.getLsbD_xor⟩
  case inclusive => exact ⟨_, writesOnly_of_handle rfl, fun _ => BitVec.getLsbD_or⟩
  case conjunction => exact ⟨_, writesOnly_of_handle rfl, fun _ => BitVec.getLsbD_and⟩

/-- Settles O33: shamt stands where an R-type word has rs2 (R55), so the rows are of that type, their upper seven bits
exact (D11); and each shift by a number of places is its multiplication or division by that power of two. -/
theorem immediateShiftsUseShamt : Obligations.ImmediateShiftsUseShamt := by
  refine ⟨?slli, ?srli, ?srai, fun rd rs1 shamt s => ⟨?left, ?logical, ?arithmetic⟩⟩
  case slli | srli | srai => exact encodes_ofR (by decide) (fun _ _ _ => rfl) (fun _ _ _ => rfl)
  case left => exact writesOnly_of_handle_of_eq rfl (shiftLeft_eq_ofNat_mul _ _)
  case logical => exact writesOnly_of_handle_of_eq rfl (ushiftRight_eq_ofNat_div _ _)
  case arithmetic => exact writesOnly_of_handle_of_eq rfl (sshiftRight_eq_ofInt_div _ _)

end Sys2Proof.Proofs
end

section
/-! SUPPORT. Loads through a checked access, and the values they extend as numbers, which the statements of spec/43_loads.md
need beyond Laws/. -/

namespace Sys2Proof.Machine

open Claims

/-! ### Extensions and assembled values as numbers -/

/-- Sign extension keeps the signed value (R7). -/
theorem sext_eq_ofInt {k : Nat} (u : BitVec k) : sext u = BitVec.ofInt 32 u.toInt := rfl

/-- Zero extension keeps the unsigned value (R7). -/
theorem zext_eq_ofNat {k : Nat} (u : BitVec k) : zext u = BitVec.ofNat 32 u.toNat := (BitVec.ofNat_toNat 32 u).symm

/-- The signed value of an assembled half-word: from 32768 up, bit 15 is the sign (R118). -/
theorem halfOfBytes_toInt (m : Memory) (a : Nat) : (halfOfBytes (m.byteAt a) (m.byteAt (a + 1))).toInt =
    if half m a < 32768 then (half m a : Int) else half m a - 65536 := by
  have value : (halfOfBytes (m.byteAt a) (m.byteAt (a + 1))).toNat = half m a := halfOfBytes_toNat _ _
  rw [BitVec.toInt_eq_toNat_cond, value]
  split_ifs <;> omega

/-- Four bytes assemble to the word of their little-endian number (R33, R119). -/
theorem wordOfBytes_eq_ofNat_quad (m : Memory) (a : Nat) :
    wordOfBytes (m.byteAt a) (m.byteAt (a + 1)) (m.byteAt (a + 2)) (m.byteAt (a + 3)) = BitVec.ofNat 32 (quad m a) := by
  rw [quad_eq_toNat, BitVec.ofNat_toNat, BitVec.setWidth_eq]

/-! ### Loads -/

/-- An instruction whose handler is a load through a checked read of `n` bytes loads what the read answers, extended; where
the span does not fit it raises the read's condition (R116). -/
theorem loads_of_handle {i : Instr} {s : State} {rd rs1 : RegIdx} {imm : Word} {n k : Nat}
    {loadFrom : Memory → Word → Except Fault (BitVec k)} {extend : BitVec k → Word} {u : BitVec k} {v : Nat → Word}
    (hhandle : handle i s = load loadFrom extend rd rs1 imm s)
    (hread : loadFrom s.mem (effAddr rs1 imm s) = s.mem.checked (effAddr rs1 imm s) n u)
    (value : extend u = v (effAddr rs1 imm s).toNat) : Loads i s rd rs1 imm n v := by
  refine ⟨fun fits => ?_, fun outside => ?_⟩
  · have hok := hread.trans (Memory.checked_ok fits u)
    exact writesOnly_of_handle_of_eq (hhandle.trans (load_of_ok hok extend rd)) value
  · have herror := hread.trans (Memory.checked_error outside u)
    rw [exec_eq_pcMux_handle, hhandle, load_of_error herror]
    rfl

end Sys2Proof.Machine
end

section
/-! PROOFS. The loads: bytes, half-words and words, extended to 32 bits (spec/43_loads.md). -/

namespace Sys2Proof.Proofs

open Sys2Proof.Machine Sys2Proof.Claims

/-- Settles O34: both are loads through the checked read of one byte, and the two extensions keep its signed and its
unsigned value. -/
theorem byteLoadsExtend : Obligations.ByteLoadsExtend := by
  refine ⟨?lb, ?lbu, fun rd rs1 imm s => ⟨?signed, ?unsigned⟩⟩
  case lb | lbu => exact encodes_ofI (by decide) (fun _ _ _ => rfl) (fun _ _ _ => rfl)
  case signed => exact loads_of_handle rfl rfl (sext_eq_ofInt _)
  case unsigned => exact loads_of_handle rfl rfl (zext_eq_ofNat _)

/-- Settles O35: the three are loads through the checked reads of two and four bytes, whose assembled values are the
little-endian numbers, as signed or unsigned. -/
theorem halfAndWordLoadsExtend : Obligations.HalfAndWordLoadsExtend := by
  refine ⟨?lh, ?lhu, ?lw, fun rd rs1 imm s => ⟨?signed, ?unsigned, ?word⟩⟩
  case lh | lhu | lw => exact encodes_ofI (by decide) (fun _ _ _ => rfl) (fun _ _ _ => rfl)
  case signed =>
    exact loads_of_handle rfl rfl ((sext_eq_ofInt _).trans (congrArg (BitVec.ofInt 32) (halfOfBytes_toInt _ _)))
  case unsigned =>
    exact loads_of_handle rfl rfl ((zext_eq_ofNat _).trans (congrArg (BitVec.ofNat 32) (halfOfBytes_toNat _ _)))
  case word => exact loads_of_handle rfl rfl (wordOfBytes_eq_ofNat_quad _ _)

end Sys2Proof.Proofs
end

section
/-! SUPPORT. Stores through a checked access, which the statement of spec/44_stores.md needs beyond Laws/. -/

namespace Sys2Proof.Machine

open Claims

/-- A pc that is `pc + 4` modulo 2^32 is the next word's where the sum does not wrap. -/
theorem pcAdvanced_of_pc_eq {s t : State} (h : t.pc = s.pc + 4) : PcAdvanced s t := by
  intro nowrap
  rw [h]
  exact (BitVec.toNat_add _ _).trans (Nat.mod_eq_of_lt nowrap)

/-- An instruction whose handler is a store through a checked write of `bytes` stores those bytes and changes nothing else;
where the span does not fit it raises the write's condition (R123). -/
theorem stores_of_handle {i : Instr} {s : State} {rs1 rs2 : RegIdx} {imm : Word} {bytes : List Byte}
    {storeTo : Memory → Word → Word → Except Fault Memory} (hwf : s.mem.wf = true)
    (hhandle : handle i s = store storeTo rs1 rs2 imm s)
    (hwrite : storeTo s.mem (effAddr rs1 imm s) (s.readReg rs2) =
      s.mem.checked (effAddr rs1 imm s) bytes.length (s.mem.setBytes (effAddr rs1 imm s).toNat bytes)) :
    Stores i s rs1 imm bytes := by
  refine ⟨fun fits => ?_, fun outside => ?_⟩
  · have hok := hhandle.trans (store_of_ok (hwrite.trans (Memory.checked_ok fits _)))
    refine ⟨_, (exec_eq_pcMux_handle i s).trans (congrArg pcMux hok), ?flag, fun _ => rfl, pcAdvanced_of_pc_eq rfl,
      Memory.setBytes_size _ _ _, fun _ hk => ?inside, fun _ ha => ?unwritten⟩
    case flag => rw [hok]; rfl
    case inside => exact Memory.byteAt_setBytes_inside hwf _ _ fits hk
    case unwritten => exact Memory.byteAt_setBytes_of_outside _ _ _ ha
  · have herror := hhandle.trans (store_of_error (hwrite.trans (Memory.checked_error outside _)))
    exact (exec_eq_pcMux_handle i s).trans (congrArg pcMux herror)

end Sys2Proof.Machine
end

section
/-! PROOFS. The stores: the low byte, half-word or word of a register (spec/44_stores.md). -/

namespace Sys2Proof.Proofs

open Sys2Proof.Machine Sys2Proof.Claims

/-- An S-type row encodes the instruction whose encoding has the pattern's opcode and funct3, and whose one condition on
its operands, that the immediate fits 12 bits, every decoded immediate meets (R51, R92). -/
theorem encodes_ofS {name : String} {pattern : Word} {f : RegIdx → RegIdx → Word → Instr}
    (hrow : ⟨name, pattern, 0x0000707F⟩ ∈ opcodeTable)
    (fits : ∀ rs1 rs2 imm, (f rs1 rs2 imm).wellFormed = immFits12 imm)
    (word : ∀ rs1 rs2 imm, encode (f rs1 rs2 imm) = encodeS imm rs2 rs1 (funct3Of pattern) (opcodeOf pattern)) :
    Encodes name pattern 0x0000707F (ofS f) := by
  refine encodes_of_row hrow fun w hw => ⟨(fits _ _ _).trans (immFits12_immS w), (word _ _ _).trans ?_⟩
  exact encodeS_fields (funct3Of_of_mask hw (by decide)) (opcodeOf_of_mask hw (by decide))

/-- Settles O36: the three are stores through the checked writes of one, two and four bytes, whose lists of bytes are the
statement's. -/
theorem storesWriteOnlyTheirBytes : Obligations.StoresWriteOnlyTheirBytes := by
  refine ⟨?sb, ?sh, ?sw, fun rs1 rs2 imm s hwf => ⟨?byte, ?half, ?word⟩⟩
  case sb | sh | sw => exact encodes_ofS (by decide) (fun _ _ _ => rfl) (fun _ _ _ => rfl)
  case byte | half | word => exact stores_of_handle hwf rfl rfl

end Sys2Proof.Proofs
end

section
/-! SUPPORT. Branches on a decided condition, which the statements of spec/45_branches.md need beyond Laws/. -/

namespace Sys2Proof.Machine

open Claims

/-- An instruction whose handler is the template of a branch, on a Boolean that decides `P`, branches on `P`: taken, only
its pc is set; not taken, nothing (R128). -/
theorem branchesOn_of_handle {i : Instr} {s : State} {cond : Bool} {imm : Word} {P : Prop}
    (hhandle : handle i s = branch cond imm s) (hP : cond = true ↔ P) : BranchesOn i s imm P := by
  have hexec := exec_eq_pcMux_handle i s
  rcases branch_cases cond imm s with ⟨hc, hb⟩ | ⟨hc, hb⟩
  · have redirects := hhandle.trans hb
    exact ⟨_, hexec.trans (congrArg pcMux redirects), fun _ => rfl, ⟨rfl, fun _ => rfl⟩,
      fun _ => ⟨BitVec.toNat_add _ _, redirects⟩, fun untaken => absurd (hP.mp hc) untaken⟩
  · have continues := hhandle.trans hb
    have untaken : ¬ P := fun taken => Bool.false_ne_true (hc.symm.trans (hP.mpr taken))
    exact ⟨_, hexec.trans (congrArg pcMux continues), fun _ => rfl, ⟨rfl, fun _ => rfl⟩,
      fun taken => absurd taken untaken, fun _ => ⟨continues, pcAdvanced_of_pc_eq rfl⟩⟩

end Sys2Proof.Machine
end

section
/-! PROOFS. The branches: on equality, and on the signed and the unsigned order (spec/45_branches.md). -/

namespace Sys2Proof.Proofs

open Sys2Proof.Machine Sys2Proof.Claims

/-- A B-type row encodes the instruction whose encoding has the pattern's opcode and funct3, and whose one condition on
its operands, that the offset is an even number of 13 bits, every decoded offset meets (R52, R92). -/
theorem encodes_ofB {name : String} {pattern : Word} {f : RegIdx → RegIdx → Word → Instr}
    (hrow : ⟨name, pattern, 0x0000707F⟩ ∈ opcodeTable)
    (fits : ∀ rs1 rs2 imm, (f rs1 rs2 imm).wellFormed = immFitsB imm)
    (word : ∀ rs1 rs2 imm, encode (f rs1 rs2 imm) = encodeB imm rs2 rs1 (funct3Of pattern) (opcodeOf pattern)) :
    Encodes name pattern 0x0000707F (ofB f) := by
  refine encodes_of_row hrow fun w hw => ⟨(fits _ _ _).trans (immFitsB_immB w), (word _ _ _).trans ?_⟩
  exact encodeB_fields (funct3Of_of_mask hw (by decide)) (opcodeOf_of_mask hw (by decide))

/-- Settles O37: both handlers are the template of a branch, on the decided equality and inequality of the two words. -/
theorem equalityBranchesRedirect : Obligations.EqualityBranchesRedirect := by
  refine ⟨?beq, ?bne, fun rs1 rs2 imm s => ⟨?equal, ?unequal⟩⟩
  case beq | bne => exact encodes_ofB (by decide) (fun _ _ _ => rfl) (fun _ _ _ => rfl)
  case equal | unequal => exact branchesOn_of_handle rfl decide_eq_true_iff

/-- Settles O38: the four handlers are the template of a branch, on the model's two comparisons and their negations, which
decide the orders of the signed and the unsigned values. -/
theorem orderedBranchesRedirect : Obligations.OrderedBranchesRedirect := by
  refine ⟨?blt, ?bge, ?bltu, ?bgeu, fun rs1 rs2 imm s => ⟨?less, ?atLeast, ?below, ?atOrAbove⟩⟩
  case blt | bge | bltu | bgeu => exact encodes_ofB (by decide) (fun _ _ _ => rfl) (fun _ _ _ => rfl)
  case less => exact branchesOn_of_handle rfl (ltSigned_iff _ _)
  case atLeast => exact branchesOn_of_handle rfl (not_ltSigned_iff _ _)
  case below => exact branchesOn_of_handle rfl (ltUnsigned_iff _ _)
  case atOrAbove => exact branchesOn_of_handle rfl (not_ltUnsigned_iff _ _)

end Sys2Proof.Proofs
end

section
/-! SUPPORT. The common end of the jumps, which the statements of spec/46_jumps.md need beyond Laws/. -/

namespace Sys2Proof.Machine

open Claims

/-- An instruction whose handler is a jump leaves `pc + 4` of the old pc in rd, sets pc to the target, which was computed
before the link is written, and changes nothing else (R136 to R138). -/
theorem jumpsTo_of_handle {i : Instr} {s : State} {rd : RegIdx} {target : Word} (h : handle i s = jump s rd target) :
    JumpsTo i s rd target := by
  refine ⟨(s.writeReg rd (s.pc + 4)).setPc target, (exec_eq_pcMux_handle i s).trans (congrArg pcMux h), h, rfl,
    State.readReg_writeReg s rd _, ?capacity, fun a => ?bytes⟩
  case capacity | bytes => rw [State.setPc_mem, State.writeReg_mem]

end Sys2Proof.Machine
end

section
/-! PROOFS. The unconditional jumps: relative to pc and to a base register (spec/46_jumps.md). -/

namespace Sys2Proof.Proofs

open Sys2Proof.Machine Sys2Proof.Claims

/-- Settles O39: the one J-type row fixes the opcode alone, and every decoded offset is an even number of 21 bits (R54); the
handler is a jump to the old pc plus the offset. -/
theorem jalLinksAndJumps : Obligations.JalLinksAndJumps := by
  refine ⟨?jal, fun rd imm s => ?jump⟩
  case jal =>
    refine encodes_of_row (by decide) fun w hw => ⟨immFitsJ_immJ w, ?word⟩
    case word => exact encodeJ_fields (opcodeOf_of_mask hw (by decide))
  case jump => exact jumpsTo_of_handle rfl

/-- Settles O40: the handler is a jump to the sum of the immediate and the base read before the link is written, so rd = rs1
needs no case of its own. -/
theorem jalrJumpsToTheOldBasePlusOffset : Obligations.JalrJumpsToTheOldBasePlusOffset := by
  refine ⟨?jalr, fun rd rs1 imm s => ?jump⟩
  case jalr => exact encodes_ofI (by decide) (fun _ _ _ => rfl) (fun _ _ _ => rfl)
  case jump => exact jumpsTo_of_handle rfl

end Sys2Proof.Proofs
end

section
/-! SUPPORT. The U immediate as a number, the two halves of a constant, and the unchanged memory of a sequence, which the
statements of spec/47_upper_imm.md need beyond Laws/. -/

namespace Sys2Proof

/-- The U immediate keeps the top 20 bits in place and clears the 12 below (R53). -/
theorem immU_toNat (w : Word) : (immU w).toNat = w.toNat / 4096 * 4096 := by
  have field : (w.extractLsb' 12 20).toNat = w.toNat / 4096 := by
    rw [BitVec.extractLsb'_toNat, Nat.shiftRight_eq_div_pow]
    omega
  rw [immU_eq_append, BitVec.toNat_append, field, BitVec.toNat_zero, Nat.or_zero, Nat.shiftLeft_eq]

/-- A word whose low 12 bits are 0 is its own U immediate. -/
theorem immU_eq_self {w : Word} (h : w.toNat % 4096 = 0) : immU w = w := by
  apply BitVec.eq_of_toNat_eq
  rw [immU_toNat]
  omega

/-- Sign extension leaves the bits it extends as they are (R7). -/
theorem sext_toNat_mod (v : BitVec 12) : (sext v).toNat % 4096 = v.toNat := by
  rw [sext, BitVec.toNat_signExtend, BitVec.toNat_setWidth]
  split <;> omega

namespace Machine

open Claims

/-! ### The two halves of a constant (R142) -/

theorem immFits12_constLo (k : Word) : immFits12 (constLo k) = true := by
  have range : -2 ^ 11 ≤ (constLo k).toInt ∧ (constLo k).toInt < 2 ^ 11 := sext_toInt_range _ (by decide)
  exact decide_eq_true (by omega)

/-- The low half agrees with the constant in the low 12 bits. -/
theorem constLo_toNat_mod (k : Word) : (constLo k).toNat % 4096 = k.toNat % 4096 := by
  have field : (extractBits k 11 0).toNat = k.toNat % 4096 := by simp [extractBits_toNat]
  exact (sext_toNat_mod _).trans field

/-- The difference of the constant and its low half has 12 low zeros, so the upper half is all of it. -/
theorem constHi_add_constLo (k : Word) : constHi k + constLo k = k := by
  have low := constLo_toNat_mod k
  have aligned : (k - constLo k).toNat % 4096 = 0 := by
    rw [BitVec.toNat_sub]
    omega
  rw [constHi, immU_eq_self aligned, BitVec.sub_add_cancel]

/-! ### Sequences -/

theorem sameMemory_trans {s t u : State} (hst : SameMemory s t) (htu : SameMemory t u) : SameMemory s u := by
  obtain ⟨size, bytes⟩ := hst
  obtain ⟨size', bytes'⟩ := htu
  exact ⟨size'.trans size, fun a => (bytes' a).trans (bytes a)⟩

end Machine

end Sys2Proof
end

section
/-! PROOFS. The upper-immediate instructions, and the constants built with them (spec/47_upper_imm.md). -/

namespace Sys2Proof.Proofs

open Sys2Proof.Machine Sys2Proof.Claims

/-- A U-type row encodes the instruction whose encoding has the pattern's opcode, and whose one condition on its operands,
that the low 12 bits of the immediate are 0, every decoded immediate meets (R53, R92). -/
theorem encodes_ofU {name : String} {pattern : Word} {f : RegIdx → Word → Instr}
    (hrow : ⟨name, pattern, 0x0000007F⟩ ∈ opcodeTable) (fits : ∀ rd imm, (f rd imm).wellFormed = immFitsU imm)
    (word : ∀ rd imm, encode (f rd imm) = encodeU imm rd (opcodeOf pattern)) :
    Encodes name pattern 0x0000007F (ofU f) := by
  refine encodes_of_row hrow fun w hw => ⟨(fits _ _).trans (immFitsU_immU w), (word _ _).trans ?_⟩
  exact encodeU_fields (opcodeOf_of_mask hw (by decide))

/-- Settles O41: both rows fix the opcode alone; `lui` writes its decoded immediate back as it stands, and `auipc` the sum
of words with pc, which is the sum of their unsigned values modulo 2^32. -/
theorem upperImmediatesWriteOnlyRd : Obligations.UpperImmediatesWriteOnlyRd := by
  refine ⟨?lui, ?auipc, immU_toNat, fun rd imm s => ⟨?positioned, ?relative⟩⟩
  case lui | auipc => exact encodes_ofU (by decide) (fun _ _ => rfl) (fun _ _ => rfl)
  case positioned => exact writesOnly_of_handle rfl
  case relative => exact writesOnly_of_handle_of_eq rfl (BitVec.add_def _ _)

/-- Settles O44: `lui` leaves the upper half in rd, `addi` adds the lower half to what it reads there, and the two halves sum
to the constant; that no other register changes is the frame of each instruction. -/
theorem luiAddiPairBuildsAnyConstant : Obligations.LuiAddiPairBuildsAnyConstant := by
  intro rd k s
  have upper : WritesOnly (.lui rd (constHi k)) s rd (constHi k) := writesOnly_of_handle rfl
  obtain ⟨t, luiNext, -, regs, mem, -⟩ := upper
  have lower : WritesOnly (.addi rd rd (constLo k)) t rd (t.readReg rd + constLo k) := writesOnly_of_handle rfl
  obtain ⟨u, addiNext, -, regs', mem', -⟩ := lower
  obtain ⟨-, others, -, -⟩ := exec_onlyChanges luiNext
  obtain ⟨-, others', -, -⟩ := exec_onlyChanges addiNext
  refine ⟨constHi k, constLo k, t, u, rfl, immFitsU_immU _, immFits12_constLo k, luiNext, addiNext, ?constant,
    fun r hr => ?kept, sameMemory_trans mem mem'⟩
  case constant =>
    rw [regs', if_pos rfl]
    split_ifs with zero
    · rfl
    · rw [regs, if_neg zero, if_pos rfl, constHi_add_constLo]
  case kept =>
    have ne : some rd ≠ some r := fun e => hr (Option.some.inj e).symm
    exact (others' r ne).trans (others r ne)

end Sys2Proof.Proofs
end

section
/-! SUPPORT. The conditions an instruction raises, and the memory and registers of a launch state, which the statements of
spec/48_system_unimplemented.md, spec/60_exceptions.md and spec/70_reset_and_hazards.md need beyond Laws/. -/

namespace Sys2Proof.Machine

open Claims

/-! ### The ten instructions that are not executed -/

/-- The handler of an instruction that is not executed raises what it names, whatever the state (R143). -/
theorem handle_of_notExecuted {i : Instr} {u : Unimplemented} (h : notExecuted i = some u) (s : State) :
    handle i s = .raised (.unimplemented u) := by
  cases i with
  | ecall | ebreak | mul | mulh | mulhsu | mulhu | div | divu | rem | remu => cases h; rfl
  | _ => cases h

theorem exec_of_notExecuted {i : Instr} {u : Unimplemented} (h : notExecuted i = some u) (s : State) :
    exec i s = .fault (.unimplemented u) := by
  rw [exec_eq_pcMux_handle, handle_of_notExecuted h, pcMux]

/-- `interpret` raises it with the very word it was given, since decoding loses nothing (R60, D19). -/
theorem interpret_of_notExecuted {w : Word} {i : Instr} {kind : Word → Unimplemented} (hi : decodeWord w = .instr i)
    (h : notExecuted i = some (kind (encode i))) (s : State) : interpret w s = .raised (.unimplemented (kind w)) := by
  obtain ⟨-, rfl⟩ := encode_of_decodeWord hi
  exact (interpret_of_decodeWord hi s).trans (handle_of_notExecuted h s)

/-- In the OP group funct7 = 0b0000001 is an M instruction for each of the eight funct3 values (R63, D18). -/
theorem decodeOp_of_funct7_eq_one {w : Word} (h7 : funct7Of w = 0b0000001#7) :
    ∃ i, decodeOp w = .instr i ∧ notExecuted i = some (.m (encode i)) := by
  rw [decodeOp, h7]
  rcases funct3_cases (funct3Of w) with h3 | h3 | h3 | h3 | h3 | h3 | h3 | h3 <;>
    (rw [h3]; exact ⟨_, rfl, rfl⟩)

/-! ### Which instruction raises what -/

theorem pcMux_eq_fault_iff {o : Interp} {c : Fault} : pcMux o = .fault c ↔ o = .raised c :=
  ⟨pcMux_fault, fun h => h ▸ rfl⟩

/-- A checked access raises exactly when its span does not fit, and then its own address and size (R30, R162). -/
theorem Memory.checked_eq_error_iff {α : Type} {m : Memory} {addr : Word} {n : Nat} {v : α} {c : Fault} :
    m.checked addr n v = .error c ↔ m.size < addr.toNat + n ∧ c = .memoryOutOfBounds addr n := by
  rcases Memory.checked_cases m addr n v with ⟨fits, h⟩ | ⟨outside, h⟩ <;> rw [h]
  · exact iff_of_false nofun fun ⟨outside, _⟩ => Nat.not_lt.mpr fits outside
  · exact ⟨fun e => ⟨outside, (Except.error.inj e).symm⟩, fun ⟨_, e⟩ => e ▸ rfl⟩

theorem branch_ne_raised (cond : Bool) (imm : Word) (s : State) (c : Fault) : branch cond imm s ≠ .raised c := by
  rcases branch_cases cond imm s with ⟨_, h⟩ | ⟨_, h⟩ <;> rw [h] <;> nofun

/-- The condition R164's table gives an instruction in a state: Unimplemented if it is one of the ten, MemoryOutOfBounds if
it has a data access whose span does not fit. -/
def ConditionOf (s : State) (i : Instr) (c : Fault) : Prop :=
  (∃ u, notExecuted i = some u ∧ c = .unimplemented u) ∨
    (s.mem.size < (access s i).1.toNat + (access s i).2 ∧ 0 < (access s i).2 ∧
      c = .memoryOutOfBounds (access s i).1 (access s i).2)

section
variable {s : State} {i : Instr} {c : Fault}

theorem conditionOf_iff_of_notExecuted {u : Unimplemented} (hu : notExecuted i = some u) (ha : (access s i).2 = 0) :
    ConditionOf s i c ↔ c = .unimplemented u := by
  simp [ConditionOf, hu, ha]

theorem conditionOf_iff_of_access {addr : Word} {n : Nat} (hu : notExecuted i = none) (ha : access s i = (addr, n))
    (hn : 0 < n) : ConditionOf s i c ↔ s.mem.size < addr.toNat + n ∧ c = .memoryOutOfBounds addr n := by
  simp [ConditionOf, hu, ha, hn]

theorem not_conditionOf (hu : notExecuted i = none) (ha : (access s i).2 = 0) : ¬ ConditionOf s i c := by
  simp [ConditionOf, hu, ha]

/-- A load through a checked read raises exactly the condition of its instruction's access (R116). -/
theorem load_eq_raised_iff {n k : Nat} {loadFrom : Memory → Word → Except Fault (BitVec k)} {extend : BitVec k → Word}
    {rd rs1 : RegIdx} {imm : Word} {v : BitVec k} (hu : notExecuted i = none)
    (ha : access s i = (effAddr rs1 imm s, n)) (hn : 0 < n)
    (hread : loadFrom s.mem (effAddr rs1 imm s) = s.mem.checked (effAddr rs1 imm s) n v) :
    load loadFrom extend rd rs1 imm s = .raised c ↔ ConditionOf s i c := by
  rw [conditionOf_iff_of_access hu ha hn, ← Memory.checked_eq_error_iff (v := v), ← hread]
  exact ⟨load_raised, fun h => load_of_error h extend rd⟩

/-- A store through a checked write raises exactly the condition of its instruction's access (R123). -/
theorem store_eq_raised_iff {n : Nat} {storeTo : Memory → Word → Word → Except Fault Memory} {rs1 rs2 : RegIdx}
    {imm : Word} {m : Memory} (hu : notExecuted i = none) (ha : access s i = (effAddr rs1 imm s, n)) (hn : 0 < n)
    (hwrite : storeTo s.mem (effAddr rs1 imm s) (s.readReg rs2) = s.mem.checked (effAddr rs1 imm s) n m) :
    store storeTo rs1 rs2 imm s = .raised c ↔ ConditionOf s i c := by
  rw [conditionOf_iff_of_access hu ha hn, ← Memory.checked_eq_error_iff (v := m), ← hwrite]
  exact ⟨store_raised, store_of_error⟩

end

/-- Every handler raises exactly the condition R164's table gives its instruction. -/
theorem handle_eq_raised_iff (i : Instr) (s : State) (c : Fault) : handle i s = .raised c ↔ ConditionOf s i c := by
  cases i with
  | lb | lh | lw | lbu | lhu => exact load_eq_raised_iff rfl rfl (by decide) rfl
  | sb | sh | sw => exact store_eq_raised_iff rfl rfl (by decide) rfl
  | beq | bne | blt | bge | bltu | bgeu =>
    exact iff_of_false (branch_ne_raised _ _ s c) (not_conditionOf rfl rfl)
  | ecall | ebreak | mul | mulh | mulhsu | mulhu | div | divu | rem | remu =>
    rw [handle_of_notExecuted rfl, conditionOf_iff_of_notExecuted rfl rfl, Interp.raised.injEq, eq_comm]
  | _ => exact iff_of_false nofun (not_conditionOf rfl rfl)

/-! ### Launches -/

/-- A launch is refused exactly beyond its limits (D20). -/
theorem launch_eq_none_iff (c : Config) : launch c = none ↔ 2 ^ 32 < c.memSize ∨ c.memSize < c.image.length := by
  unfold launch
  split
  next limits => exact iff_of_false nofun (by omega)
  next limits => exact iff_of_true rfl (by omega)

/-- A memory that lists no byte is well-formed up to the largest capacity (R5). -/
theorem Memory.wf_empty {size : Nat} (h : size ≤ 2 ^ 32) : Memory.wf { size := size, cells := [] } = true := by
  rw [Memory.wf, decide_eq_true h]
  rfl

section
variable {c : Config} {s : State}

/-- x1 to x31 hold INIT_X in order (R176). -/
theorem readReg_of_launch (h : launch c = some s) {k : Nat} (hk : k < 31) :
    s.readReg (BitVec.ofNat 5 (k + 1)) = c.initX[k] := by
  obtain ⟨-, -, hregs, -, -⟩ := launch_eq_some h
  have index : (BitVec.ofNat 5 (k + 1)).toNat = k + 1 := Nat.mod_eq_of_lt (by omega)
  have nonzero : BitVec.ofNat 5 (k + 1) ≠ 0#5 := fun e => by simpa [index] using congrArg BitVec.toNat e
  simp only [State.readReg, if_neg nonzero, index, hregs]
  exact Vector.getElem_append_right (by omega) (by omega)

/-- The image lies from address 0 (R176). -/
theorem byteAt_of_launch_image (h : launch c = some s) {k : Nat} (hk : k < c.image.length) :
    s.mem.byteAt k = c.image[k] := by
  obtain ⟨hsize, hfits, -, -, hmem⟩ := launch_eq_some h
  have inside := Memory.byteAt_setBytes_inside (wf_layCells (Memory.wf_empty hsize) c.initMem) 0 c.image
    (by simpa using hfits) hk
  rwa [Nat.zero_add, ← hmem] at inside

/-- Beyond the image the memory is that of INIT_MEM alone (R176). -/
theorem byteAt_of_launch_beyond_image (h : launch c = some s) {a : Nat} (ha : c.image.length ≤ a) :
    s.mem.byteAt a = (layCells { size := c.memSize, cells := [] } c.initMem).byteAt a := by
  obtain ⟨-, -, -, -, hmem⟩ := launch_eq_some h
  rw [hmem]
  exact Memory.byteAt_setBytes_of_outside _ _ _ (by omega)

theorem wf_of_launch (h : launch c = some s) : s.mem.wf = true := by
  have inv := inv_of_launch h
  rw [State.inv, Bool.and_eq_true] at inv
  exact inv.1

end

end Sys2Proof.Machine
end

section
/-! PROOFS. The instructions that are not executed, what each instruction raises, the launch state, and sample words
(spec/48_system_unimplemented.md, spec/60_exceptions.md, spec/70_reset_and_hazards.md, spec/95_test_vectors.md). -/

namespace Sys2Proof.Proofs

open Sys2Proof.Machine Sys2Proof.Claims

/-- A SYSTEM row whose mask covers word[31:20] encodes the instruction whose immediate is the pattern's, for any rd and rs1
(R67, R92, D9). -/
theorem encodes_system {name : String} {pattern imm : Word} {f : RegIdx → RegIdx → Instr}
    (hrow : ⟨name, pattern, 0xFFF0707F⟩ ∈ opcodeTable) (himm : extractBits imm 11 0 = imm12Of pattern)
    (fits : ∀ rd rs1, (f rd rs1).wellFormed = true)
    (word : ∀ rd rs1, encode (f rd rs1) = encodeI imm rs1 (funct3Of pattern) rd (opcodeOf pattern)) :
    Encodes name pattern 0xFFF0707F (fun w => f (w.extractLsb' 7 5) (w.extractLsb' 15 5)) := by
  refine encodes_of_row hrow fun w hw => ⟨fits _ _, (word _ _).trans ?_⟩
  exact encodeI_fields (himm.trans (imm12Of_of_mask hw (by decide)).symm) (funct3Of_of_mask hw (by decide))
    (opcodeOf_of_mask hw (by decide))

/-- Settles O42: a matching word decodes to an instruction that is not executed, whose encoding is the very word. -/
theorem ecallEbreakRaiseUnimplemented : Obligations.EcallEbreakRaiseUnimplemented := by
  have ecall := encodes_system (name := "ecall") (pattern := 0x00000073) (imm := 0x000) (f := .ecall) (by decide)
    (by decide) (fun _ _ => rfl) (fun _ _ => rfl)
  have ebreak := encodes_system (name := "ebreak") (pattern := 0x00100073) (imm := 0x001) (f := .ebreak) (by decide)
    (by decide) (fun _ _ => rfl) (fun _ _ => rfl)
  exact ⟨ecall, ebreak, fun w s hw => interpret_of_notExecuted (ecall.1 w hw) rfl s,
    fun w s hw => interpret_of_notExecuted (ebreak.1 w hw) rfl s,
    fun rd rs1 s => ⟨exec_of_notExecuted rfl s, exec_of_notExecuted rfl s⟩⟩

/-- Settles O43: a matching word has the OP opcode and funct7 = 0b0000001, so it decodes to an M instruction, which is not
executed. -/
theorem mExtensionRaisesUnimplemented : Obligations.MExtensionRaisesUnimplemented := by
  refine ⟨?mul, ?mulh, ?mulhsu, ?mulhu, ?div, ?divu, ?rem, ?remu, fun w s hw => ?word, fun rd rs1 rs2 s => ?operands⟩
  case mul | mulh | mulhsu | mulhu | div | divu | rem | remu =>
    exact encodes_ofR (by decide) (fun _ _ _ => rfl) (fun _ _ _ => rfl)
  case word =>
    have h7 : funct7Of w = 0b0000001#7 := funct7Of_of_mask hw (by decide)
    have hop : opcodeOf w = 0x33#7 := opcodeOf_of_mask hw (by decide)
    obtain ⟨i, hi, stops⟩ := decodeOp_of_funct7_eq_one h7
    have decoded : decodeWord w = .instr i := by rw [decodeWord, hop]; exact hi
    exact interpret_of_notExecuted decoded stops s
  case operands =>
    have stops : ∀ f ∈ [Instr.mul, Instr.mulh, Instr.mulhsu, Instr.mulhu, Instr.div, Instr.divu, Instr.rem, Instr.remu],
        notExecuted (f rd rs1 rs2) = some (.m (encode (f rd rs1 rs2))) := by simp [notExecuted]
    exact fun f hf => exec_of_notExecuted (stops f hf) s

/-- Settles O19: exec ends in a condition exactly when its handler raises it, and the PC mux declines nothing. -/
theorem instructionsRaiseExactlyTheirConditions : Obligations.InstructionsRaiseExactlyTheirConditions := by
  intro i s
  rw [exec_eq_pcMux_handle]
  exact ⟨fun c => pcMux_eq_fault_iff.trans (handle_eq_raised_iff i s c), pcMux_ne_refused _⟩

/-- Settles O23: the image is the last thing laid into memory, so it decides its own bytes, and beyond it INIT_MEM decides;
where INIT_MEM names nothing the memory is still the empty one. -/
theorem launchBuildsTheLaunchState : Obligations.LaunchBuildsTheLaunchState := by
  refine fun c => ⟨launch_eq_none_iff c, fun s h => ?_⟩
  obtain ⟨hsize, -, -, hpc, -⟩ := launch_eq_some h
  refine ⟨hpc, size_of_launch h, State.readReg_zero s, fun k hk => readReg_of_launch h hk,
    fun k hk => byteAt_of_launch_image h hk, fun a b before after hbeyond ha hnamed hlast => ?named,
    fun a hbeyond hunnamed => ?unnamed, fun a ha => ?outside⟩
  case named =>
    rw [byteAt_of_launch_beyond_image h hbeyond, hnamed]
    exact byteAt_layCells_of_last (Memory.wf_empty hsize) before after ha hlast
  case unnamed =>
    rw [byteAt_of_launch_beyond_image h hbeyond, byteAt_layCells_of_unnamed _ _ hunnamed]
    rfl
  case outside => exact Memory.byteAt_of_size_le (wf_of_launch h) (by rwa [size_of_launch h])

/-- Settles O11: eleven closed facts about the decoder. -/
theorem sampleWordsDecodeAsSpelled : Obligations.SampleWordsDecodeAsSpelled := by
  refine ⟨?_, ?_, ?_, ?_, ?_, ?_, ?_, ?_, ?_, ?_, ?_⟩ <;> decide

end Sys2Proof.Proofs
end
